-- ==== Sys2Proof/Word.lean ====
section
/-! DEFINITION. The two widths of the machine (spec/00_scope.md rule R5): bytes of the Program Store and of raw
fields, and 16-bit words of registers and operands. -/

namespace Sys2Proof

/-- A byte, `u8`. -/
abbrev Byte := BitVec 8

/-- A register or operand value, `u16` (unsigned, rule R10). -/
abbrev Word := BitVec 16

end Sys2Proof
end

