-- ==== Sys2Proof/Config.lean ====
section
/-! DEFINITION. The parameters of spec/00_scope.md rule R4: what an implementation fixes, and the one free value
(the boot image). `PROG_MEM` and `ARB` are open parameters that a state carries (log 1, log 13); here stand only
their bounds and the values `State.reset` takes. -/

namespace Sys2Proof

/-- `ARB` (rule R4): how Loader writes and instruction fetches share the Program Store. -/
inductive Arb where
  /-- One instruction is one step and one chunk is one step (20_memory.md rule R42). -/
  | locked
  /-- The reference profile: single-byte reads and writes are the steps (20_memory.md rule R45). -/
  | racy
  deriving DecidableEq, Repr

namespace Config

/-- `N`, the number of general registers (R4). -/
abbrev numRegs : Nat := 4

/-- `MAX_LITERAL = 65535 - N`, the largest raw operand that is a literal (R4, R53). -/
def maxLiteral : Nat := 65535 - numRegs

/-- `STAGE_CAP`, the largest chunk in bytes, offset included (R4, R37). -/
def stageCap : Nat := 256

/-- The least value of the open parameter `PROG_MEM` (R4). -/
def progMemMin : Nat := 1

/-- The greatest value of the open parameter `PROG_MEM` (R4). -/
def progMemMax : Nat := 65536

/-- The value of the open parameter `PROG_MEM` in `State.reset`: DESIGN CHOICE (log 1), the capacity the spec's own
test vectors use (R4). No statement about all states depends on it. -/
def progMemAtReset : Nat := 512

/-- `ARB` in `State.reset`: the spec's choice (R4, R42; log 13). -/
def arbAtReset : Arb := .locked

/-- `FLAG_RESET` (R4; decided by the spec, D12; log 8). -/
def flagReset : Bool := false

/-- `NPIX_RESET` (R4; decided by the spec, D13; log 9). -/
def npixReset : Byte := 0

/-- `BOOT_IMAGE` (R4, R122): byte `a` of the Program Store after reset. A FREE VALUE: the spec leaves the bytes open
and forbids assuming any image, so nothing can be proved of them (log 2). -/
opaque bootImage : Nat → Byte

/-! The byte values of the comparison characters of CMP (30_encoding.md rule R59, D11; log 12). -/

def cmpEq : Byte := 0x3D
def cmpGt : Byte := 0x3E
def cmpLt : Byte := 0x3C
def cmpNe : Byte := 0x21

/-- The opcode bytes that select an instruction, `OP_EXIT` to `OP_LED_FILL` (30_encoding.md rule R56, D1; log 12);
every other byte is an unknown opcode (R57). -/
def isAssignedOpcode (b : Byte) : Bool := decide (b.toNat ≤ 0x10)

end Config

end Sys2Proof
end

