-- ==== Sys2Proof/Syntax.lean ====
section
/-! DEFINITION. The instructions as data: one constructor per row of spec/opcode_table.json, with the fields of
30_encoding.md rule R52. -/

namespace Sys2Proof

/-- An `op16` field after the split of the Operand Model (30_encoding.md rule R53). -/
inductive Operand where
  /-- A literal, used as it stands; well-formed up to 65531 (R63). -/
  | lit (v : Word)
  /-- A reference to a general register. -/
  | reg (r : Fin Config.numRegs)
  deriving DecidableEq, Repr

/-- The comparison named by CMP's raw op byte (30_encoding.md rule R59). -/
inductive CmpOp where
  /-- `=`, byte 0x3D. -/
  | eq
  /-- `>`, byte 0x3E. -/
  | gt
  /-- `<`, byte 0x3C. -/
  | lt
  /-- `!`, byte 0x21. -/
  | ne
  /-- Any other byte: no meaning in the source, `flag` is left alone (42_compare.md rule R83). -/
  | other (b : Byte)
  deriving DecidableEq, Repr

/-- The instruction set (30_encoding.md rules R52, R56, R57). -/
inductive Instr where
  /-- EXIT, rule R71. -/
  | exit
  /-- PRINT with the string's bytes, the terminator left out, rule R72. -/
  | print (str : List Byte)
  /-- SET with its raw index byte and operand, rule R75. -/
  | set (idx : Byte) (a : Operand)
  /-- ADD, rule R76. -/
  | add (idx : Byte) (a : Operand)
  /-- SUB, rule R77. -/
  | sub (idx : Byte) (a : Operand)
  /-- CMP, rule R80. -/
  | cmp (op : CmpOp) (a b : Operand)
  /-- CMPZ, rule R81. -/
  | cmpz (a : Operand)
  /-- CMPNZ, rule R82. -/
  | cmpnz (a : Operand)
  /-- SLEEP, rule R85. -/
  | sleep (a : Operand)
  /-- JUMP, rule R86. -/
  | jump (a : Operand)
  /-- JUMP_COND, rule R87. -/
  | jumpCond (a : Operand)
  /-- LED_CLEAR, rule R90. -/
  | ledClear
  /-- LED_SET_N, rule R91. -/
  | ledSetN (a : Operand)
  /-- LED_SET_PIXEL, rule R92. -/
  | ledSetPixel (i r g b : Operand)
  /-- LED_SYNC, rule R93. -/
  | ledSync
  /-- LED_BLUR, rule R94. -/
  | ledBlur (a : Operand)
  /-- LED_FILL, rule R95. -/
  | ledFill (r g b : Operand)
  /-- Any opcode byte that selects no instruction, rule R98. -/
  | unknown (opc : Byte)
  deriving DecidableEq, Repr

/-- The length in bytes (30_encoding.md rules R52, R58). -/
def Instr.size : Instr → Nat
  | .exit => 1
  | .print str => 2 + str.length
  | .set _ _ => 4
  | .add _ _ => 4
  | .sub _ _ => 4
  | .cmp _ _ _ => 6
  | .cmpz _ => 3
  | .cmpnz _ => 3
  | .sleep _ => 3
  | .jump _ => 3
  | .jumpCond _ => 3
  | .ledClear => 1
  | .ledSetN _ => 3
  | .ledSetPixel _ _ _ _ => 9
  | .ledSync => 1
  | .ledBlur _ => 3
  | .ledFill _ _ _ => 7
  | .unknown _ => 1

end Sys2Proof
end

