-- ==== Sys2Proof/WellFormed.lean ====
section
/-! DEFINITION. Which instruction terms stand for bytes of the Program Store: the terms the decoder can answer. -/

namespace Sys2Proof

/-- A literal operand is at most `MAX_LITERAL`: the values above it always mean registers (30_encoding.md rule R63). -/
def Operand.wf : Operand → Bool
  | .lit v => decide (v.toNat ≤ Config.maxLiteral)
  | .reg _ => true

/-- `other` is none of the four comparison bytes (30_encoding.md rule R59). -/
def CmpOp.wf : CmpOp → Bool
  | .other b => decide (b ≠ Config.cmpEq ∧ b ≠ Config.cmpGt ∧ b ≠ Config.cmpLt ∧ b ≠ Config.cmpNe)
  | _ => true

/-- Every field is one its encoding can carry: operands (R63), comparison bytes (R59), a PRINT string without the
terminator byte inside (R52), an unknown opcode that is no assigned one (R57). -/
def Instr.wf : Instr → Bool
  | .exit => true
  | .print str => decide (0#8 ∉ str)
  | .set _ a => a.wf
  | .add _ a => a.wf
  | .sub _ a => a.wf
  | .cmp op a b => op.wf && a.wf && b.wf
  | .cmpz a => a.wf
  | .cmpnz a => a.wf
  | .sleep a => a.wf
  | .jump a => a.wf
  | .jumpCond a => a.wf
  | .ledClear => true
  | .ledSetN a => a.wf
  | .ledSetPixel i r g b => i.wf && r.wf && g.wf && b.wf
  | .ledSync => true
  | .ledBlur a => a.wf
  | .ledFill r g b => r.wf && g.wf && b.wf
  | .unknown opc => !Config.isAssignedOpcode opc

end Sys2Proof
end

