-- ==== Sys2Proof/Decode.lean ====
section
/-! DEFINITION. From the bytes of the instruction stream to an instruction, and back (30_encoding.md). The decoder is
total: it answers an instruction and the bytes after it, or says by name which field could not be read. -/

namespace Sys2Proof

/-- Why no instruction could be decoded. There is no illegal encoding (30_encoding.md rule R57). -/
inductive DecodeError where
  /-- The field of `n` bytes that begins `off` bytes after the opcode byte does not lie wholly in the given bytes. -/
  | short (off n : Nat)
  /-- The Operand Model's guard (30_encoding.md rule R54): the field that ends `off` bytes after the opcode byte's
  address holds `raw`, which names no register. It cannot happen with `N = 4`. -/
  | guard (off : Nat) (raw : Word)
  deriving DecidableEq, Repr

/-- The opcodes of 30_encoding.md rule R56. -/
inductive Opcode where
  | exit | print | set | add | sub | cmp | cmpz | cmpnz | sleep | jump | jumpCond
  | ledClear | ledSetN | ledSetPixel | ledSync | ledBlur | ledFill
  deriving DecidableEq, Repr

/-- The opcode byte, `OP_<mnemonic>` (rule R56). -/
def Opcode.byte : Opcode → Byte
  | .exit => 0x00
  | .print => 0x01
  | .set => 0x02
  | .add => 0x03
  | .sub => 0x04
  | .cmp => 0x05
  | .cmpz => 0x06
  | .cmpnz => 0x07
  | .sleep => 0x08
  | .jump => 0x09
  | .jumpCond => 0x0A
  | .ledClear => 0x0B
  | .ledSetN => 0x0C
  | .ledSetPixel => 0x0D
  | .ledSync => 0x0E
  | .ledBlur => 0x0F
  | .ledFill => 0x10

/-- The instruction an opcode byte selects; none for an unknown opcode (rules R56, R57). -/
def Opcode.ofByte (b : Byte) : Option Opcode :=
  match b.toNat with
  | 0x00 => some .exit
  | 0x01 => some .print
  | 0x02 => some .set
  | 0x03 => some .add
  | 0x04 => some .sub
  | 0x05 => some .cmp
  | 0x06 => some .cmpz
  | 0x07 => some .cmpnz
  | 0x08 => some .sleep
  | 0x09 => some .jump
  | 0x0A => some .jumpCond
  | 0x0B => some .ledClear
  | 0x0C => some .ledSetN
  | 0x0D => some .ledSetPixel
  | 0x0E => some .ledSync
  | 0x0F => some .ledBlur
  | 0x10 => some .ledFill
  | _ => none

/-- The split of the Operand Model (30_encoding.md rule R53) with its guard (R54): a raw value up to `MAX_LITERAL`
is a literal, one above names register `raw - MAX_LITERAL - 1`; none where that is no register. -/
def Operand.ofRaw (raw : Word) : Option Operand :=
  if raw.toNat ≤ Config.maxLiteral then some (.lit raw)
  else if h : raw.toNat - Config.maxLiteral - 1 < Config.numRegs then
    some (.reg ⟨raw.toNat - Config.maxLiteral - 1, h⟩)
  else none

/-- The raw value of an operand field (rule R53's table). -/
def Operand.raw : Operand → Word
  | .lit v => v
  | .reg r => BitVec.ofNat 16 (Config.maxLiteral + 1 + r.val)

/-- The comparison a CMP op byte selects (rule R59). -/
def CmpOp.ofByte (b : Byte) : CmpOp :=
  if b = Config.cmpEq then .eq
  else if b = Config.cmpGt then .gt
  else if b = Config.cmpLt then .lt
  else if b = Config.cmpNe then .ne
  else .other b

/-- The op byte of a comparison (rule R59). -/
def CmpOp.byte : CmpOp → Byte
  | .eq => Config.cmpEq
  | .gt => Config.cmpGt
  | .lt => Config.cmpLt
  | .ne => Config.cmpNe
  | .other b => b

/-- A 16-bit field from its bytes: the low byte lies first (20_memory.md rule R33). -/
def wordOfBytes (lo hi : Byte) : Word := hi ++ lo

/-- The bytes of a 16-bit field, in stream order (20_memory.md rule R33). -/
def bytesOfWord (w : Word) : List Byte := [w.extractLsb' 0 8, w.extractLsb' 8 8]

/-- `Fetch8` of the field at offset `off` (30_encoding.md rule R62): one byte, used raw. -/
def take8 (off : Nat) : List Byte → Except DecodeError (Byte × List Byte)
  | b :: rest => .ok (b, rest)
  | [] => .error (.short off 1)

/-- `Fetch16` of the field at offset `off` (rule R62): both bytes must be there (20_memory.md rule R32). -/
def take16 (off : Nat) : List Byte → Except DecodeError (Word × List Byte)
  | lo :: hi :: rest => .ok (wordOfBytes lo hi, rest)
  | _ => .error (.short off 2)

/-- `FetchOperand` of the field at offset `off` (rule R62), up to reading the register file. -/
def takeOperand (off : Nat) (bs : List Byte) : Except DecodeError (Operand × List Byte) :=
  match take16 off bs with
  | .error e => .error e
  | .ok (raw, rest) =>
    match Operand.ofRaw raw with
    | some a => .ok (a, rest)
    | none => .error (.guard (off + 2) raw)

/-- The `cstr` field of PRINT at offset `off` (30_encoding.md rule R51): bytes up to the first 0x00, which is
consumed and is not part of the string. -/
def takeString (off : Nat) : List Byte → Except DecodeError (List Byte × List Byte)
  | [] => .error (.short off 1)
  | c :: rest =>
    if c = 0#8 then .ok ([], rest)
    else match takeString (off + 1) rest with
      | .error e => .error e
      | .ok (str, rest') => .ok (c :: str, rest')

/-- Format `RO` after the opcode byte (rule R52). -/
def decodeRO (mk : Byte → Operand → Instr) (bs : List Byte) : Except DecodeError (Instr × List Byte) := do
  let (idx, bs) ← take8 1 bs
  let (a, bs) ← takeOperand 2 bs
  return (mk idx a, bs)

/-- Format `O` after the opcode byte (rule R52). -/
def decodeO (mk : Operand → Instr) (bs : List Byte) : Except DecodeError (Instr × List Byte) := do
  let (a, bs) ← takeOperand 1 bs
  return (mk a, bs)

/-- Format `CO2` after the opcode byte (rule R52). -/
def decodeCO2 (bs : List Byte) : Except DecodeError (Instr × List Byte) := do
  let (cop, bs) ← take8 1 bs
  let (a, bs) ← takeOperand 2 bs
  let (b, bs) ← takeOperand 4 bs
  return (.cmp (CmpOp.ofByte cop) a b, bs)

/-- Format `O3` after the opcode byte (rule R52). -/
def decodeO3 (bs : List Byte) : Except DecodeError (Instr × List Byte) := do
  let (r, bs) ← takeOperand 1 bs
  let (g, bs) ← takeOperand 3 bs
  let (b, bs) ← takeOperand 5 bs
  return (.ledFill r g b, bs)

/-- Format `O4` after the opcode byte (rule R52). -/
def decodeO4 (bs : List Byte) : Except DecodeError (Instr × List Byte) := do
  let (i, bs) ← takeOperand 1 bs
  let (r, bs) ← takeOperand 3 bs
  let (g, bs) ← takeOperand 5 bs
  let (b, bs) ← takeOperand 7 bs
  return (.ledSetPixel i r g b, bs)

/-- Format `S` after the opcode byte (rule R52). -/
def decodeS (bs : List Byte) : Except DecodeError (Instr × List Byte) := do
  let (str, bs) ← takeString 1 bs
  return (.print str, bs)

/-- The fields that follow an opcode byte, in stream order (rules R52, R56, R62). -/
def decodeFields : Opcode → List Byte → Except DecodeError (Instr × List Byte)
  | .exit, bs => .ok (.exit, bs)
  | .print, bs => decodeS bs
  | .set, bs => decodeRO .set bs
  | .add, bs => decodeRO .add bs
  | .sub, bs => decodeRO .sub bs
  | .cmp, bs => decodeCO2 bs
  | .cmpz, bs => decodeO .cmpz bs
  | .cmpnz, bs => decodeO .cmpnz bs
  | .sleep, bs => decodeO .sleep bs
  | .jump, bs => decodeO .jump bs
  | .jumpCond, bs => decodeO .jumpCond bs
  | .ledClear, bs => .ok (.ledClear, bs)
  | .ledSetN, bs => decodeO .ledSetN bs
  | .ledSetPixel, bs => decodeO4 bs
  | .ledSync, bs => .ok (.ledSync, bs)
  | .ledBlur, bs => decodeO .ledBlur bs
  | .ledFill, bs => decodeO3 bs

/-- The instruction that begins the given bytes, and the bytes after it (30_encoding.md rules R50, R57, R58, R62). -/
def decode (bs : List Byte) : Except DecodeError (Instr × List Byte) :=
  match take8 0 bs with
  | .error e => .error e
  | .ok (opc, rest) =>
    match Opcode.ofByte opc with
    | some o => decodeFields o rest
    | none => .ok (.unknown opc, rest)

/-- How many of the given bytes belong to fields that are wholly there: where the next field fetch would begin.
Under `ARB = racy` this is how far `pc` has come (log 24). -/
def fieldsDone (bs : List Byte) : Nat :=
  match decode bs with
  | .ok (_, rest) => bs.length - rest.length
  | .error (.short off _) => off
  | .error (.guard off _) => off

/-- The bytes of an instruction in stream order (30_encoding.md rules R52, R56). -/
def encode : Instr → List Byte
  | .exit => [Opcode.byte .exit]
  | .print str => Opcode.byte .print :: (str ++ [0#8])
  | .set idx a => Opcode.byte .set :: idx :: bytesOfWord a.raw
  | .add idx a => Opcode.byte .add :: idx :: bytesOfWord a.raw
  | .sub idx a => Opcode.byte .sub :: idx :: bytesOfWord a.raw
  | .cmp op a b => Opcode.byte .cmp :: op.byte :: (bytesOfWord a.raw ++ bytesOfWord b.raw)
  | .cmpz a => Opcode.byte .cmpz :: bytesOfWord a.raw
  | .cmpnz a => Opcode.byte .cmpnz :: bytesOfWord a.raw
  | .sleep a => Opcode.byte .sleep :: bytesOfWord a.raw
  | .jump a => Opcode.byte .jump :: bytesOfWord a.raw
  | .jumpCond a => Opcode.byte .jumpCond :: bytesOfWord a.raw
  | .ledClear => [Opcode.byte .ledClear]
  | .ledSetN a => Opcode.byte .ledSetN :: bytesOfWord a.raw
  | .ledSetPixel i r g b =>
    Opcode.byte .ledSetPixel :: (bytesOfWord i.raw ++ (bytesOfWord r.raw ++ (bytesOfWord g.raw ++ bytesOfWord b.raw)))
  | .ledSync => [Opcode.byte .ledSync]
  | .ledBlur a => Opcode.byte .ledBlur :: bytesOfWord a.raw
  | .ledFill r g b => Opcode.byte .ledFill :: (bytesOfWord r.raw ++ (bytesOfWord g.raw ++ bytesOfWord b.raw))
  | .unknown opc => [opc]

/-- The `count` low bytes of a number, the least significant first. -/
def bytesOfNat : (count : Nat) → Nat → List Byte
  | 0, _ => []
  | count + 1, w => BitVec.ofNat 8 (w % 256) :: bytesOfNat count (w / 256)

/-- The longest instruction of a fixed length is LED_SET_PIXEL's 9 bytes (rule R52). -/
def longestFixedSize : Nat := 9

/-- An instruction of the opcode table laid out as the hardware stores it: the low `nbits` bits of `w`, byte 0 from
bits 7:0 (30_encoding.md rule R52), and bytes of zeros above them up to the longest fixed length. -/
def tableBytes (nbits w : Nat) : List Byte :=
  bytesOfNat (max ((nbits + 7) / 8) longestFixedSize) (w % 2 ^ nbits)

/-- The instruction the decoder reads from an instruction whose bits are `w`. -/
def decodeTableWord (nbits w : Nat) : Option Instr :=
  match decode (tableBytes nbits w) with
  | .ok (i, _) => some i
  | .error _ => none

end Sys2Proof
end

