-- ==== Sys2Proof/Machine/State.lean ====
section
/-! DEFINITION. The state of the block as plain data (spec/10_state.md rule R23: its table is the whole state), the
events that cross its boundary, the reasons a step stops, and the state after reset. -/

namespace Sys2Proof.Machine

/-- `pc` (10_state.md rules R12, R13): the sentinel `Unset` or a byte address, a natural number that never wraps. -/
inductive Pc where
  /-- "Not yet started", distinct from address 0. -/
  | unset
  /-- The address of the next byte of the instruction stream. -/
  | addr (a : Nat)
  deriving DecidableEq, Repr

/-- `mode`, the Interpreter's run state (10_state.md rule R15). -/
inductive Mode where
  | unstarted
  | running
  | waitSleep
  | waitSync
  | halted
  | faulted
  deriving DecidableEq, Repr

/-- What `fault` records: the cause and its info (60_exceptions.md rule R101). -/
inductive FaultRecord where
  /-- Code 1: a fetch of `n` bytes at `addr` does not fit the store; `pc0` is the opcode byte's address (R102). -/
  | fetchOutOfBounds (pc0 addr n : Nat)
  /-- Code 2: SET, ADD or SUB with a raw index of 4 or more (R103). -/
  | badRegIndex (pc0 : Nat) (idx : Byte)
  /-- Code 3: the Operand Model's guard; unreachable with `N = 4` (R104). -/
  | operandIndexGuard (pc0 : Nat) (raw : Word)
  /-- Code 4: a chunk shorter than its offset prefix (R105). -/
  | loaderTooShort (len : Nat)
  /-- Code 5: a chunk longer than the staging buffer (R105). -/
  | loaderTooLong (len : Nat)
  /-- Code 6: a payload that does not fit the store (R105). -/
  | loaderOverflow (offset payloadLen : Nat)
  deriving DecidableEq, Repr

/-- An output event (10_state.md rule R19). -/
inductive OutEvent where
  /-- `DisplayClear`, by LED_CLEAR. -/
  | displayClear
  /-- `DisplaySetPixelCount(n)`, by LED_SET_N. -/
  | displaySetPixelCount (n : Byte)
  /-- `DisplaySetPixel(i, r, g, b)`, by LED_SET_PIXEL and LED_FILL. -/
  | displaySetPixel (i r g b : Byte)
  /-- `DisplaySync(wait)`, by LED_SYNC. -/
  | displaySync (wait : Bool)
  /-- `DisplayBlur(radius)`, by LED_BLUR. -/
  | displayBlur (radius : Nat)
  /-- `Sleep(ms)`, by SLEEP. -/
  | sleep (ms : Word)
  /-- `Print(s, r0, r1, r2, r3)`, by PRINT. -/
  | print (str : List Byte) (r0 r1 r2 r3 : Word)
  deriving DecidableEq, Repr

/-- An input event (10_state.md rule R20). -/
inductive Input where
  /-- The block's only reset (70_reset_and_hazards.md rule R120). -/
  | reset
  /-- The scheduler invokes the run loop (10_state.md rule R21). -/
  | run
  /-- The Control Channel delivers a chunk to the Loader (20_memory.md rule R37). -/
  | chunk (bytes : List Byte)
  /-- The sleep of a SLEEP is over (10_state.md rule R22). -/
  | wake
  /-- The frame of a LED_SYNC is out (10_state.md rule R22). -/
  | syncDone
  deriving DecidableEq, Repr

/-- Who moves in one step (00_scope.md rule R6, 20_memory.md rules R43, R45). -/
inductive Turn where
  /-- The Interpreter. -/
  | interp
  /-- The Loader, only under `ARB = racy`: it writes the `k`-th of the payload bytes it has not written yet. -/
  | loader (k : Nat)
  /-- The environment delivers an event. -/
  | input (e : Input)
  deriving DecidableEq, Repr

/-- Only under `ARB = racy`: an instruction whose fields are being fetched byte by byte (20_memory.md rule R45). -/
structure Fetching where
  /-- The address of its opcode byte. -/
  pc0 : Nat
  /-- The bytes fetched so far, in stream order. -/
  bytes : List Byte
  deriving DecidableEq, Repr

/-- The bytes the Loader has written since reset, as (address, byte) pairs with strictly rising addresses. An unlisted
address has no byte of its own: it reads as the boot image (20_memory.md rule R43; log 2). -/
abbrev Memory := List Host.Cell

/-- The whole state (10_state.md rules R23, R10 to R19), the two open parameters that statements range over, and the
model's own bookkeeping of which agent moves (log 1, log 3, log 13). -/
structure State where
  /-- The general registers (R10). -/
  x : Vector Word Config.numRegs
  /-- The instruction pointer (R12). -/
  pc : Pc
  /-- The comparison flag (R14). -/
  flag : Bool
  /-- The run state (R15). -/
  mode : Mode
  /-- The latched fault (R16). -/
  fault : Option FaultRecord
  /-- The active pixel count (R17). -/
  npix : Byte
  /-- The Loader's staging buffer, 256 bytes (R18). -/
  stage : List Byte
  /-- How many bytes of `stage` hold the chunk being applied (R18). -/
  stageLen : Nat
  /-- The Program Store (20_memory.md rule R30). -/
  mem : Memory
  /-- The output stream, oldest event first (R19). -/
  out : List OutEvent
  /-- The open parameter `PROG_MEM` (00_scope.md rule R4), the capacity of `mem`; no step changes it (log 1). -/
  progMem : Nat
  /-- The parameter `ARB` (00_scope.md rule R4); no step changes it (log 13). -/
  arb : Arb
  /-- MODEL's own: who moves in the coming steps; when it is empty the Interpreter moves (log 3). -/
  schedule : List Turn
  /-- MODEL's own, `ARB = racy` only: the instruction being fetched (log 13). -/
  fetching : Option Fetching
  /-- MODEL's own, `ARB = racy` only: the accepted chunk's bytes that are not in `mem` yet (log 13). -/
  pending : List Host.Cell
  deriving DecidableEq, Repr

/-- Why the MODEL stops with a fault. The spec's own faults are no stop: entering `Faulted` is a next state
(60_exceptions.md rule R107; log 6). -/
inductive Fault where
  /-- Raised by an instruction or a fetch in a state that is to run with `pc = Unset`, which 10_state.md rule R15
  rules out and no run reaches (log 5). Safe: nothing is claimed of such a state. -/
  | pcUnset
  deriving DecidableEq, Repr

/-- Why the model gives an instruction no meaning. No meaning answers with one: decode is total and the hardware
refuses nothing (00_scope.md rule R7). -/
inductive Refusal where
  /-- The instruction of that mnemonic has no meaning yet; raised by `exec`'s arms only. Safe. -/
  | notModelled (mnemonic : String)
  deriving DecidableEq, Repr

/-- The cleared staging buffer (10_state.md rule R18, D26). -/
def clearedStage : List Byte := List.replicate Config.stageCap 0

/-- The state after `reset` (10_state.md rule R24) of a block with the given parameters, with a given schedule of what
comes next: parameters and the environment's plans are no state of the block and survive (log 15). -/
def State.resetWith (progMem : Nat) (arb : Arb) (schedule : List Turn) : State where
  x := Vector.replicate Config.numRegs 0
  pc := .unset
  flag := Config.flagReset
  mode := .unstarted
  fault := none
  npix := Config.npixReset
  stage := clearedStage
  stageLen := 0
  mem := []
  out := []
  progMem := progMem
  arb := arb
  schedule := schedule
  fetching := none
  pending := []

/-- The machine right after reset (10_state.md rule R24), with nothing scheduled. -/
def State.reset : State := State.resetWith Config.progMemAtReset Config.arbAtReset []

end Sys2Proof.Machine
end

