-- ==== Sys2Proof/Machine/Ops.lean ====
section
/-! DEFINITION. The named operations over registers and memory, the emission of output events, and the one operation
that enters a fault. There is no return from a fault but `reset` (60_exceptions.md rule R108), whose operation stands
beside it. -/

namespace Sys2Proof.Machine

/-- What a meaning answers. -/
abbrev Result := Host.Outcome State Fault Refusal

/-! ### The Program Store -/

/-- The byte the Loader has written at an address since reset, if any. -/
def Memory.written : Memory → Nat → Option Byte
  | [], _ => none
  | (a', b) :: rest, a => if a' = a then some b else Memory.written rest a

/-- `mem[a]`: the byte last written there, or the boot image's (20_memory.md rules R43, R47). -/
def Memory.read (m : Memory) (a : Nat) : Byte := (m.written a).getD (Config.bootImage a)

/-- `MemWrite(a, 1, b)`: `mem[a] <- b` (20_memory.md rule R35). -/
def Memory.write : Memory → Nat → Byte → Memory
  | [], a, b => [(a, b)]
  | (a', b') :: rest, a, b =>
    if a < a' then (a, b) :: (a', b') :: rest
    else if a = a' then (a, b) :: rest
    else (a', b') :: Memory.write rest a b

/-- Bytes written one after the other from an address on: the loop of `write_at` (rule R35). -/
def Memory.writeBytes (m : Memory) (a : Nat) : List Byte → Memory
  | [] => m
  | b :: rest => Memory.writeBytes (m.write a b) (a + 1) rest

/-- The canonical form: strictly rising addresses, so that equal contents are equal data. -/
def Memory.wf : Memory → Bool
  | [] => true
  | [_] => true
  | c :: d :: rest => decide (c.1 < d.1) && Memory.wf (d :: rest)

/-- `MemRead(addr, 1)` (20_memory.md rule R32): none where it would raise `FetchOutOfBounds`. -/
def State.memRead8 (s : State) (addr : Nat) : Option Byte :=
  if addr + 1 > s.progMem then none else some (s.mem.read addr)

/-- `MemRead(addr, 2)` (rule R32): the whole access is checked, then the low byte comes first. -/
def State.memRead16 (s : State) (addr : Nat) : Option Word :=
  if addr + 2 > s.progMem then none else some (wordOfBytes (s.mem.read addr) (s.mem.read (addr + 1)))

/-- The bytes that successive single-byte reads give, `count` of them at most, up to the first that does not fit. -/
def State.readBytes (s : State) (addr : Nat) : (count : Nat) → List Byte
  | 0 => []
  | count + 1 =>
    match s.memRead8 addr with
    | none => []
    | some b => b :: s.readBytes (addr + 1) count

/-- The instruction stream from an address to the end of the store (20_memory.md rules R30, R32). -/
def State.stream (s : State) (addr : Nat) : List Byte := s.readBytes addr (s.progMem - addr)

/-- Bytes written to the store from an address on. -/
def State.writeBytes (s : State) (a : Nat) (bytes : List Byte) : State := { s with mem := s.mem.writeBytes a bytes }

/-- `write_at(offset, bytes)` (20_memory.md rule R35): none where it fails with `OutOfBounds`, nothing written. -/
def State.writeAt (s : State) (offset : Nat) (bytes : List Byte) : Option State :=
  if offset + bytes.length > s.progMem then none
  else some (s.writeBytes offset bytes)

/-! ### Registers, flag and control state -/

/-- `x[r] <- v` (00_scope.md rule R5). No register is hard-wired (10_state.md rule R10). -/
def State.setReg (s : State) (r : Fin Config.numRegs) (v : Word) : State := { s with x := s.x.set r.val v }

/-- `pc <- a`. -/
def State.setPc (s : State) (a : Nat) : State := { s with pc := .addr a }

/-- `flag <- v` (10_state.md rule R14). -/
def State.setFlag (s : State) (v : Bool) : State := { s with flag := v }

/-- `mode <- m` (10_state.md rule R15). -/
def State.setMode (s : State) (m : Mode) : State := { s with mode := m }

/-- `npix <- n` (10_state.md rule R17). -/
def State.setNpix (s : State) (n : Byte) : State := { s with npix := n }

/-- `emit` of events in their order (00_scope.md rule R5, 10_state.md rule R19). -/
def State.emit (s : State) (es : List OutEvent) : State := { s with out := s.out ++ es }

/-- What comes next after the turn that is taken now (log 3). -/
def State.setSchedule (s : State) (later : List Turn) : State := { s with schedule := later }

/-- What the racy Loader still has to write (20_memory.md rule R45; log 13). -/
def State.setPending (s : State) (cells : List Host.Cell) : State := { s with pending := cells }

/-- `MemWrite(a, 1, b)` on the state's store (20_memory.md rule R35). -/
def State.writeByte (s : State) (a : Nat) (b : Byte) : State := { s with mem := s.mem.write a b }

/-- `stage[0..256) <- 0x00; stage_len <- 0` (20_memory.md rule R37 step 6). -/
def State.clearStage (s : State) : State := { s with stage := clearedStage, stageLen := 0 }

/-! ### Entering a fault, and leaving it -/

/-- The cause code of a fault record (60_exceptions.md rule R101). -/
def FaultRecord.code : FaultRecord → Nat
  | .fetchOutOfBounds _ _ _ => 1
  | .badRegIndex _ _ => 2
  | .operandIndexGuard _ _ => 3
  | .loaderTooShort _ => 4
  | .loaderTooLong _ => 5
  | .loaderOverflow _ _ => 6

/-- `raise F(info)` (60_exceptions.md rule R107), given the state before the step: everything the step would have
changed is discarded, the fault is latched and the block is `Faulted`. An instruction being fetched byte by byte is
dropped with it (log 14). -/
def State.raise (s : State) (f : FaultRecord) : State :=
  { s with fault := some f, mode := .faulted, fetching := none }

/-- `raise` in the Interpreter's step: `pc` keeps the advances of the successful fetches and so stands at `pcNow`
(rules R102, R103, R107). -/
def State.raiseAt (s : State) (pcNow : Nat) (f : FaultRecord) : State := (s.raise f).setPc pcNow

/-- `raise` in the Loader's step: the staging buffer is cleared too (rule R107, 20_memory.md rule R38). -/
def State.raiseLoader (s : State) (f : FaultRecord) : State := (s.raise f).clearStage

/-- The `reset` event, the only way out of `Faulted` (60_exceptions.md rule R108, 70_reset_and_hazards.md rule R120):
every piece of state takes its reset value, whatever the mode; the block's parameters and what the environment does
next are not its state (log 15). -/
def State.resetEvent (s : State) : State := State.resetWith s.progMem s.arb s.schedule

/-! ### Instructions -/

/-- An instruction whose opcode byte lies at `pc0`, the value of `pc` when it begins (40_exit_print.md rule R70).
With `pc = Unset` there is no instruction to execute (10_state.md rule R15; log 5). -/
def State.atPc (s : State) (body : Nat → State) : Result :=
  match s.pc with
  | .unset => .fault .pcUnset
  | .addr pc0 => .next (body pc0)

/-- The shape of SET, ADD and SUB (41_register_alu.md rules R75 to R77): the register of the raw index byte takes the
value `f` makes of its old one, and `pc` goes past the 4 bytes; an index that names no register is `BadRegIndex`,
raised after all four bytes have been fetched (rule R79). -/
def State.updateReg (s : State) (idx : Byte) (f : Word → Word) : Result :=
  s.atPc fun pc0 =>
    if h : idx.toNat < Config.numRegs then
      (s.setReg ⟨idx.toNat, h⟩ (f s.x[idx.toNat])).setPc (pc0 + 4)
    else s.raiseAt (pc0 + 4) (.badRegIndex pc0 idx)

end Sys2Proof.Machine
end

