-- ==== Sys2Proof/Machine/Loader.lean ====
section
/-! DEFINITION. The Loader agent: the chunk protocol and its one operation (20_memory.md rules R36 to R41), and its
single-byte writes under `ARB = racy` (rule R45). -/

namespace Sys2Proof.Machine

/-- `stage[0..L) <- bytes; stage_len <- L` (20_memory.md rule R37 step 2). -/
def State.stageChunk (s : State) (bytes : List Byte) : State :=
  { s with stage := bytes ++ s.stage.drop bytes.length, stageLen := bytes.length }

/-- `stage[0] + 256 * stage[1]`, the destination of the staged chunk (rules R36, R37 step 3). -/
def State.stageOffset (s : State) : Nat := (s.stage.getD 0 0).toNat + 256 * (s.stage.getD 1 0).toNat

/-- `stage[2..L)`, the payload of the staged chunk (rules R36, R37 step 4). -/
def State.stagePayload (s : State) : List Byte := (s.stage.take s.stageLen).drop 2

/-- Consecutive bytes as the cells they go to. -/
def cellsFrom (a : Nat) : List Byte → List Host.Cell
  | [] => []
  | b :: rest => (a, b) :: cellsFrom (a + 1) rest

/-- The staging buffer is cleared once no payload byte is left to write (rule R37 step 6; log 14). -/
def State.clearStageIfDone (s : State) : State := if s.pending = [] then s.clearStage else s

/-- What follows the checks of a chunk: under `locked` the whole `write_at` and the clearing of the staging buffer in
the same step (rules R37 step 6, R42); under `racy` the payload bytes wait to be written one by one (rule R45). -/
def State.acceptChunk (s : State) (offset : Nat) (payload : List Byte) : State :=
  match s.arb with
  | .locked =>
    match s.writeAt offset payload with
    | some s' => s'.clearStage
    | none => s.raiseLoader (.loaderOverflow offset payload.length)
  | .racy => (s.setPending (cellsFrom offset payload)).clearStageIfDone

/-- `apply_chunk(bytes)` (20_memory.md rule R37), the checks in the rule's order, so that a chunk reports at most one
cause; a chunk that fails one writes nothing (rule R38). -/
def State.applyChunk (s : State) (bytes : List Byte) : State :=
  if bytes.length < 2 then s.raiseLoader (.loaderTooShort bytes.length)
  else if bytes.length > Config.stageCap then s.raiseLoader (.loaderTooLong bytes.length)
  else
    let staged := s.stageChunk bytes
    if staged.stageOffset + staged.stagePayload.length > s.progMem then
      s.raiseLoader (.loaderOverflow staged.stageOffset staged.stagePayload.length)
    else staged.acceptChunk staged.stageOffset staged.stagePayload

/-- One single-byte write of the Loader under `racy` (rule R45): the `k`-th of the bytes not written yet goes to the
store. Nothing moves in `Faulted` (60_exceptions.md rule R106) or when there is no such byte. -/
def State.loaderWrite (s : State) (k : Nat) : State :=
  if s.mode = .faulted then s
  else match s.pending[k]? with
    | none => s
    | some (a, b) => ((s.writeByte a b).setPending (s.pending.eraseIdx k)).clearStageIfDone

end Sys2Proof.Machine
end

