-- ==== Sys2Proof/Machine/Environment.lean ====
section
/-! DEFINITION. The input events (10_state.md rules R20 to R22; `reset` itself stands beside the fault in Ops). -/

namespace Sys2Proof.Machine

/-- The `run` event (10_state.md rule R21): it starts an unstarted Interpreter at address 0 and resumes a halted one
where it stopped; the loop is not re-entrant. -/
def State.runEvent (s : State) : State :=
  match s.mode with
  | .unstarted => (s.setPc 0).setMode .running
  | .halted => s.setMode .running
  | _ => s

/-- The `wake` event (10_state.md rule R22): it ends whatever sleep the block is in. The event does not say which SLEEP
it answers, so one that is still owed from before a `reset` ends a sleep begun after it (log 23). -/
def State.wakeEvent (s : State) : State :=
  match s.mode with
  | .waitSleep => s.setMode .running
  | _ => s

/-- The `sync_done` event (10_state.md rule R22): it ends whatever sync the block is in, and as with `wake` also one
begun after a `reset` that the event is older than (log 23). -/
def State.syncDoneEvent (s : State) : State :=
  match s.mode with
  | .waitSync => s.setMode .running
  | _ => s

/-- The `chunk(bytes)` event (20_memory.md rules R37, R41): ignored in `Faulted`; one chunk is in progress at a time,
so while the Loader still has bytes to write (`racy` only) it writes one of them and the delivery stays due
(log 14). -/
def State.chunkEvent (s : State) (bytes : List Byte) : State :=
  if s.mode = .faulted then s
  else if s.pending = [] then s.applyChunk bytes
  else (s.setSchedule (.input (.chunk bytes) :: s.schedule)).loaderWrite 0

/-- An input event takes effect at once, as one step (rule R20). -/
def State.inputEvent (s : State) : Input → State
  | .reset => s.resetEvent
  | .run => s.runEvent
  | .chunk bytes => s.chunkEvent bytes
  | .wake => s.wakeEvent
  | .syncDone => s.syncDoneEvent

end Sys2Proof.Machine
end

