-- ==== Sys2Proof/Machine/Flags.lean ====
section
/-! DEFINITION. How the comparison flag is computed: its only writers are CMP, CMPZ and CMPNZ (10_state.md rule R14,
42_compare.md). -/

namespace Sys2Proof.Machine

/-- The flag after CMP with op byte `op` on (val1, val2) = `(a, b)`, unsigned, when it was `old` before
(42_compare.md rule R80; an unknown op byte leaves it, rule R83, log 10). -/
def cmpFlag (op : CmpOp) (a b : Word) (old : Bool) : Bool :=
  match op with
  | .eq => decide (a.toNat = b.toNat)
  | .gt => decide (a.toNat > b.toNat)
  | .lt => decide (a.toNat < b.toNat)
  | .ne => decide (a.toNat ≠ b.toNat)
  | .other _ => old

/-- The flag after CMPZ (42_compare.md rule R81). -/
def zeroFlag (a : Word) : Bool := decide (a.toNat = 0)

/-- The flag after CMPNZ (42_compare.md rule R82). -/
def nonzeroFlag (a : Word) : Bool := decide (a.toNat ≠ 0)

end Sys2Proof.Machine
end

