-- ==== Sys2Proof/Machine/Operands.lean ====
section
/-! DEFINITION. What operand fields are worth (30_encoding.md rules R53 to R55, 44_display.md rule R94). -/

namespace Sys2Proof.Machine

/-- The value of an operand (30_encoding.md rule R53): a literal as it stands, or the contents of a register before
the instruction. -/
def State.value (s : State) : Operand → Word
  | .lit v => v
  | .reg r => s.x[r.val]

/-- `decode(raw)` of the Operand Model against the current register file (rule R53), with its guard (rule R54): none
where `OperandIndexGuard` would be raised. -/
def State.decodeOperand (s : State) (raw : Word) : Option Word := (Operand.ofRaw raw).map s.value

/-- `v[7:0]`, the narrowing of "low byte only" fields, after decode (rule R55). -/
def lowByte (v : Word) : Byte := v.setWidth 8

/-- `min(max(a, 1), 4)`, the clamp of LED_BLUR over the full 16-bit value (44_display.md rule R94; log 11). -/
def clampRadius (v : Word) : Nat := min (max v.toNat 1) 4

end Sys2Proof.Machine
end

