-- ==== Sys2Proof/Machine/Compare.lean ====
section
/-! DEFINITION. CMP, CMPZ and CMPNZ, the only writers of the comparison flag (42_compare.md). -/

namespace Sys2Proof.Machine

/-- CMP: the flag takes the comparison of the two operands; 6 bytes whatever the op byte (rules R80, R83). -/
def execCmp (op : CmpOp) (a b : Operand) (s : State) : Result :=
  s.atPc fun pc0 => (s.setFlag (cmpFlag op (s.value a) (s.value b) s.flag)).setPc (pc0 + 6)

/-- CMPZ: `flag <- (a = 0)` (rule R81). -/
def execCmpz (a : Operand) (s : State) : Result :=
  s.atPc fun pc0 => (s.setFlag (zeroFlag (s.value a))).setPc (pc0 + 3)

/-- CMPNZ: `flag <- (a != 0)` (rule R82). -/
def execCmpnz (a : Operand) (s : State) : Result :=
  s.atPc fun pc0 => (s.setFlag (nonzeroFlag (s.value a))).setPc (pc0 + 3)

end Sys2Proof.Machine
end

