-- ==== Sys2Proof/Machine/Display.lean ====
section
/-! DEFINITION. The display opcodes: which command each issues, with which arguments, in which order
(44_display.md). What the display does with a command is outside the block (rule R3). -/

namespace Sys2Proof.Machine

/-- LED_CLEAR (rule R90). -/
def execLedClear (s : State) : Result := s.atPc fun pc0 => (s.emit [.displayClear]).setPc (pc0 + 1)

/-- LED_SET_N: the low byte of the operand is the pixel count, and the core keeps it in `npix` (rule R91). -/
def execLedSetN (a : Operand) (s : State) : Result :=
  s.atPc fun pc0 =>
    let n := lowByte (s.value a)
    ((s.emit [.displaySetPixelCount n]).setNpix n).setPc (pc0 + 3)

/-- LED_SET_PIXEL: four low bytes; the index is not compared with `npix` (rule R92). -/
def execLedSetPixel (i r g b : Operand) (s : State) : Result :=
  s.atPc fun pc0 =>
    (s.emit [.displaySetPixel (lowByte (s.value i)) (lowByte (s.value r)) (lowByte (s.value g))
      (lowByte (s.value b))]).setPc (pc0 + 9)

/-- LED_SYNC: a blocking sync, then wait for `sync_done` (rule R93). -/
def execLedSync (s : State) : Result :=
  s.atPc fun pc0 => ((s.emit [.displaySync true]).setMode .waitSync).setPc (pc0 + 1)

/-- LED_BLUR: the radius is clamped to 1 to 4 (rule R94). -/
def execLedBlur (a : Operand) (s : State) : Result :=
  s.atPc fun pc0 => (s.emit [.displayBlur (clampRadius (s.value a))]).setPc (pc0 + 3)

/-- The calls of LED_FILL: one for every active pixel index, ascending (rule R95). -/
def fillEvents (npix r g b : Byte) : List OutEvent :=
  (List.range npix.toNat).map fun i => .displaySetPixel (BitVec.ofNat 8 i) r g b

/-- LED_FILL (rule R95). -/
def execLedFill (r g b : Operand) (s : State) : Result :=
  s.atPc fun pc0 =>
    (s.emit (fillEvents s.npix (lowByte (s.value r)) (lowByte (s.value g)) (lowByte (s.value b)))).setPc (pc0 + 7)

end Sys2Proof.Machine
end

