-- ==== Sys2Proof/Machine/ExitPrint.lean ====
section
/-! DEFINITION. EXIT and PRINT (40_exit_print.md). -/

namespace Sys2Proof.Machine

/-- EXIT: halt the run loop; `pc` is left after the EXIT (rule R71). -/
def execExit (s : State) : Result := s.atPc fun pc0 => (s.setMode .halted).setPc (pc0 + 1)

/-- PRINT: the raw string and the four registers go to the diagnostic sink; `pc` goes past the terminator
(rule R72). -/
def execPrint (str : List Byte) (s : State) : Result :=
  s.atPc fun pc0 => (s.emit [.print str s.x[0] s.x[1] s.x[2] s.x[3]]).setPc (pc0 + (2 + str.length))

end Sys2Proof.Machine
end

