-- ==== Sys2Proof/Machine/RegisterAlu.lean ====
section
/-! DEFINITION. SET, ADD and SUB, the only writers of the register file (41_register_alu.md). The operand is read
before the register is written, and no flag is touched. -/

namespace Sys2Proof.Machine

/-- SET: `x[idx] <- a` (rule R75). -/
def execSet (idx : Byte) (a : Operand) (s : State) : Result := s.updateReg idx fun _ => s.value a

/-- ADD: `x[idx] <- (x[idx] + a) mod 65536` (rule R76). -/
def execAdd (idx : Byte) (a : Operand) (s : State) : Result := s.updateReg idx fun old => old + s.value a

/-- SUB: `x[idx] <- (x[idx] - a) mod 65536` (rule R77). -/
def execSub (idx : Byte) (a : Operand) (s : State) : Result := s.updateReg idx fun old => old - s.value a

end Sys2Proof.Machine
end

