-- ==== Sys2Proof/Machine/SleepJump.lean ====
section
/-! DEFINITION. SLEEP, JUMP and JUMP_COND (43_sleep_jump.md). -/

namespace Sys2Proof.Machine

/-- SLEEP: hand the milliseconds to the timer and wait for `wake`; `pc` is already past the SLEEP (rule R85). -/
def execSleep (a : Operand) (s : State) : Result :=
  s.atPc fun pc0 => ((s.emit [.sleep (s.value a)]).setMode .waitSleep).setPc (pc0 + 3)

/-- JUMP: `pc <- a`, an absolute byte address that is not validated (rule R86). -/
def execJump (a : Operand) (s : State) : Result := s.atPc fun _ => s.setPc (s.value a).toNat

/-- JUMP_COND: as JUMP if `flag` is true, else fall through; the flag is kept (rule R87). -/
def execJumpCond (a : Operand) (s : State) : Result :=
  s.atPc fun pc0 => s.setPc (if s.flag then (s.value a).toNat else pc0 + 3)

end Sys2Proof.Machine
end

