-- ==== Sys2Proof/Machine/Unknown.lean ====
section
/-! DEFINITION. The unknown opcode (45_unknown_opcode.md). -/

namespace Sys2Proof.Machine

/-- UNKNOWN: a one-byte no-operation, whatever the byte (rule R98). -/
def execUnknown (_opc : Byte) (s : State) : Result := s.atPc fun pc0 => s.setPc (pc0 + 1)

end Sys2Proof.Machine
end

