-- ==== Sys2Proof/Machine/Dispatch.lean ====
section
/-! DEFINITION. One arm per constructor of Instr: the instruction whose opcode byte lies at `pc`, its fields fetched,
has its whole effect, the advance of `pc` past its bytes included (40_exit_print.md rule R70). -/

namespace Sys2Proof.Machine

def exec (i : Instr) (s : State) : Host.Outcome State Fault Refusal :=
  match i with
  | .exit => Sys2Proof.Machine.execExit s
  | .print str => Sys2Proof.Machine.execPrint str s
  | .set idx a => Sys2Proof.Machine.execSet idx a s
  | .add idx a => Sys2Proof.Machine.execAdd idx a s
  | .sub idx a => Sys2Proof.Machine.execSub idx a s
  | .cmp op a b => Sys2Proof.Machine.execCmp op a b s
  | .cmpz a => Sys2Proof.Machine.execCmpz a s
  | .cmpnz a => Sys2Proof.Machine.execCmpnz a s
  | .sleep a => Sys2Proof.Machine.execSleep a s
  | .jump a => Sys2Proof.Machine.execJump a s
  | .jumpCond a => Sys2Proof.Machine.execJumpCond a s
  | .ledClear => Sys2Proof.Machine.execLedClear s
  | .ledSetN a => Sys2Proof.Machine.execLedSetN a s
  | .ledSetPixel idx r g b => Sys2Proof.Machine.execLedSetPixel idx r g b s
  | .ledSync => Sys2Proof.Machine.execLedSync s
  | .ledBlur a => Sys2Proof.Machine.execLedBlur a s
  | .ledFill r g b => Sys2Proof.Machine.execLedFill r g b s
  | .unknown opc => Sys2Proof.Machine.execUnknown opc s

end Sys2Proof.Machine
end

