-- ==== Sys2Proof/Machine/Interpreter.lean ====
section
/-! DEFINITION. The Interpreter's move: fetch the fields of the instruction at `pc`, then execute it
(40_exit_print.md rule R70, 30_encoding.md rule R62), as one step under `ARB = locked` (20_memory.md rule R42) and
byte by byte under `ARB = racy` (rule R45). -/

namespace Sys2Proof.Machine

/-- A field of the instruction at `pc0` cannot be had: a read that does not fit the store is `FetchOutOfBounds`
with `pc` left at the failed read's address (60_exceptions.md rule R102); the guard of the Operand Model is raised at
the field concerned (rules R104, R106). -/
def State.fetchFault (s : State) (pc0 : Nat) : DecodeError → State
  | .short off n => s.raiseAt (pc0 + off) (.fetchOutOfBounds pc0 (pc0 + off) n)
  | .guard off raw => s.raiseAt (pc0 + off) (.operandIndexGuard pc0 raw)

/-- One whole instruction: its bytes are all in memory at one instant (20_memory.md rule R42). -/
def State.lockedMove (s : State) (pc0 : Nat) : Result :=
  match decode (s.stream pc0) with
  | .ok (i, _) => exec i s
  | .error e => .next (s.fetchFault pc0 e)

/-- The instruction being fetched, or one about to begin at `pc` with no byte fetched yet. -/
def State.fetchingFrom (s : State) (pc : Nat) : Fetching := s.fetching.getD ⟨pc, []⟩

/-- One atomic action of the racy Interpreter (20_memory.md rule R45): execute an instruction whose fields are all
fetched, or check the field that comes next and read one byte of it, the low address first. `pc` passes a field once
all of it is read, so that between the two reads of a 16-bit field it stands at the field's first byte: the model's
choice (log 24). -/
def State.racyMove (s : State) (f : Fetching) : Result :=
  match decode f.bytes with
  | .ok (i, _) => exec i { s with pc := .addr f.pc0, fetching := none }
  | .error (.short off n) =>
    if f.pc0 + off + n > s.progMem then .next (s.fetchFault f.pc0 (.short off n))
    else
      let bytes := f.bytes ++ [s.mem.read (f.pc0 + f.bytes.length)]
      .next { s with fetching := some ⟨f.pc0, bytes⟩, pc := .addr (f.pc0 + fieldsDone bytes) }
  | .error (.guard off raw) => .next (s.fetchFault f.pc0 (.guard off raw))

/-- The Interpreter's move. It has one only in `Running` (40_exit_print.md rule R70); in every other mode the block
stays as it is (log 4). -/
def State.interpMove (s : State) : Result :=
  match s.mode with
  | .running =>
    match s.pc with
    | .unset => .fault .pcUnset
    | .addr pc =>
      match s.arb with
      | .locked => s.lockedMove pc
      | .racy => s.racyMove (s.fetchingFrom pc)
  | _ => .next s

end Sys2Proof.Machine
end

