-- ==== Sys2Proof/Machine/Step.lean ====
section
/-! DEFINITION. One step of the whole block: the agent whose turn it is moves (00_scope.md rule R6; log 3). -/

namespace Sys2Proof.Machine

/-- The move of one agent (00_scope.md rule R6). -/
def State.move (s : State) : Turn → Result
  | .interp => s.interpMove
  | .loader k => .next (s.loaderWrite k)
  | .input e => .next (s.inputEvent e)

/-- One step: the turn at the head of the schedule is taken; with none scheduled the Interpreter moves (log 3). -/
def step (s : State) : Host.Outcome State Fault Refusal :=
  match s.schedule with
  | [] => s.interpMove
  | turn :: rest => (s.setSchedule rest).move turn

/-- Where the next instruction is fetched: at `pc`, or at address 0 where the `run` event would start
(10_state.md rule R21). -/
def State.fetchAddress (s : State) : Nat :=
  match s.pc with
  | .unset => 0
  | .addr a => a

/-- The state in which the instruction of the low `nbits` bits of `w` lies where `step` fetches next, and the next
step runs it: the load that chunks would do, and the `run` event's `Running` mode, with no other agent's turn before
it and the whole instruction one step (log 7). -/
def State.withFetchWord (s : State) (nbits w : Nat) : State :=
  { s with
    mem := s.mem.writeBytes s.fetchAddress ((tableBytes nbits w).take (s.progMem - s.fetchAddress))
    pc := .addr s.fetchAddress
    mode := .running
    fault := none
    arb := .locked
    schedule := []
    fetching := none }

end Sys2Proof.Machine
end

