-- ==== Sys2Proof/Safety.lean ====
section
/-! DEFINITION. What counts as a good state and a good run, in the terms the statements use. -/

namespace Sys2Proof.Machine

/-- The arguments an output event may carry (10_state.md rule R19): a sync always waits, a radius is 1 to 4, a PRINT
string holds no terminator. -/
def OutEvent.wf : OutEvent → Bool
  | .displaySync wait => wait
  | .displayBlur radius => decide (1 ≤ radius ∧ radius ≤ 4)
  | .print str _ _ _ _ => decide (0#8 ∉ str)
  | _ => true

/-- What every reachable state satisfies, whatever PROG_MEM, ARB and the schedule. -/
structure State.Inv (s : State) : Prop where
  /-- `1 <= PROG_MEM <= 65536` (00_scope.md rule R4). -/
  capacity : Config.progMemMin ≤ s.progMem ∧ s.progMem ≤ Config.progMemMax
  /-- The Program Store keeps its canonical form. -/
  memCanonical : s.mem.wf = true
  /-- No byte exists at or beyond `PROG_MEM` (20_memory.md rule R30). -/
  memBounded : ∀ c ∈ s.mem, c.1 < s.progMem
  /-- `mode = Unstarted` implies `pc = Unset` (10_state.md rule R15). -/
  unstartedPc : s.mode = .unstarted → s.pc = .unset
  /-- `pc = Unset` implies Unstarted or Faulted (rule R15). -/
  unsetMode : s.pc = .unset → s.mode = .unstarted ∨ s.mode = .faulted
  /-- `mode = Faulted` if and only if `fault != None` (rule R15). -/
  faultedIff : s.mode = .faulted ↔ s.fault ≠ none
  /-- A numeric `pc` lies in [0, 65536] (rule R13). -/
  pcRange : ∀ a, s.pc = .addr a → a ≤ 65536
  /-- The staging buffer has 256 bytes (rule R18). -/
  stageSize : s.stage.length = Config.stageCap
  /-- Between Loader steps the staging buffer is clear (rule R18). -/
  stageClear : s.pending = [] → s.stage = clearedStage ∧ s.stageLen = 0
  /-- The Loader has checked what it still has to write (20_memory.md rule R37 step 5). -/
  pendingBounded : ∀ c ∈ s.pending, c.1 < s.progMem
  /-- Under `ARB = locked` nothing is ever half done (20_memory.md rule R42). -/
  lockedAtomic : s.arb = .locked → s.pending = [] ∧ s.fetching = none
  /-- Only a running Interpreter is fetching, from inside the store, and `pc` stands right after the fields that are
  wholly fetched (rules R12, R62; within a 16-bit field log 24). -/
  fetchingInside : ∀ f, s.fetching = some f →
    s.mode = .running ∧ s.pc = .addr (f.pc0 + fieldsDone f.bytes) ∧ f.pc0 + f.bytes.length ≤ s.progMem
  /-- Every event of the output stream is one rule R19 admits. -/
  outWf : ∀ e ∈ s.out, e.wf = true

/-- A good state has met no fatal condition: "a claim about a run takes `fault = None` as part of what it means for
the run to be good" (60_exceptions.md rule R107). -/
def State.good (s : State) : Prop := s.fault = none

/-- The modes a run passes through (70_reset_and_hazards.md rule R132). -/
def Mode.inRun : Mode → Bool
  | .running => true
  | .waitSleep => true
  | .waitSync => true
  | .unstarted => false
  | .halted => false
  | .faulted => false

/-- How a run ends, where it does (rule R132). -/
inductive RunEnd where
  /-- An EXIT was executed. -/
  | normal
  /-- A fault; never a good end. -/
  | fault
  deriving DecidableEq, Repr

/-- The end of a run that the step from `s` to `t` makes: a run ends when the block leaves
`Running`/`WaitSleep`/`WaitSync` for `Halted` or `Faulted`, and only then. A fault in `Unstarted` or `Halted` ends no
run (rule R132). -/
def State.runEnd (s t : State) : Option RunEnd :=
  if s.mode.inRun = true then
    match t.mode with
    | .halted => some .normal
    | .faulted => some .fault
    | .unstarted => none
    | .running => none
    | .waitSleep => none
    | .waitSync => none
  else none

/-- A run begins with a `run` event in a mode that heeds it; its first state is `start` (rules R132, R21). -/
def StartsRun (s start : State) : Prop :=
  (s.mode = .unstarted ∨ s.mode = .halted) ∧ (∃ later, s.schedule = .input .run :: later) ∧
    Machine.step s = .next start

/-- The states of the run that begins at `start`, the steps of every agent counted (rule R132). -/
inductive InRun (start : State) : State → Prop where
  | start : InRun start start
  | step (s t : State) : InRun start s → Machine.step s = .next t → t.mode.inRun = true → InRun start t

/-- The run that begins at `start` ends in the way `e`, and `final` is the whole state at that moment
(rule R132, cases 1 and 2). -/
def RunEndsIn (start : State) (e : RunEnd) (final : State) : Prop :=
  ∃ s, InRun start s ∧ Machine.step s = .next final ∧ s.runEnd final = some e

/-- The run that begins at `start` never ends: it runs or waits for ever (rule R132, case 3). -/
def RunGoesOn (start : State) : Prop :=
  ∀ s, InRun start s → ∃ t, Machine.step s = .next t ∧ t.mode.inRun = true

/-- A `reset` comes in the middle of the run that begins at `start`. The rule counts this as none of its three ways; it
is no end of the run's own (log 22). -/
def RunIsCutOff (start : State) : Prop :=
  ∃ s later, InRun start s ∧ s.schedule = .input .reset :: later

/-- The states that a block with capacity `progMem` reaches from reset, under any arbitration and schedule. -/
inductive Reachable (progMem : Nat) (arb : Arb) : State → Prop where
  | reset (schedule : List Turn) : Reachable progMem arb (State.resetWith progMem arb schedule)
  | step (s t : State) : Reachable progMem arb s → Machine.step s = .next t → Reachable progMem arb t

/-! ### The boot image's contract (70_reset_and_hazards.md rule R122; no statement assumes it, log 2) -/

/-- The pixels an output stream leaves lit, in the order in which they were set: those whose last `DisplaySetPixel`
since the last `DisplayClear` has a colour other than black. -/
def litAfter : List Byte → List OutEvent → List Byte
  | lit, [] => lit
  | _, .displayClear :: es => litAfter [] es
  | lit, .displaySetPixel i r g b :: es =>
    litAfter (lit.filter (· ≠ i) ++ if r = 0 ∧ g = 0 ∧ b = 0 then [] else [i]) es
  | lit, .displaySetPixelCount _ :: es => litAfter lit es
  | lit, .displaySync _ :: es => litAfter lit es
  | lit, .displayBlur _ :: es => litAfter lit es
  | lit, .sleep _ :: es => litAfter lit es
  | lit, .print _ _ _ _ _ :: es => litAfter lit es

/-- The pixels that are lit, as far as the commands to the display say. -/
def State.litPixels (s : State) : List Byte := litAfter [] s.out

/-- A step of a program that is left alone: nothing comes from the environment but completions (rule R22). -/
def AloneStep (s t : State) : Prop :=
  ∃ turn, (turn = .interp ∨ turn = .input .wake ∨ turn = .input .syncDone) ∧
    Machine.step { s with schedule := [turn] } = .next t

/-- The states of a program that is left alone from `start` on. -/
inductive Alone (start : State) : State → Prop where
  | start : Alone start start
  | step (s t : State) : Alone start s → AloneStep s t → Alone start t

/-- However far the program has come, a step of this kind still lies ahead of it. -/
def AgainAndAgain (start : State) (kind : State → State → Prop) : Prop :=
  ∀ s, Alone start s → ∃ t u, Alone s t ∧ AloneStep t u ∧ kind t u

/-- A counter is incremented. -/
def Incremented (r : Fin Config.numRegs) (s t : State) : Prop := t.x[r.val] = s.x[r.val] + 1

/-- A counter is decremented. -/
def Decremented (r : Fin Config.numRegs) (s t : State) : Prop := t.x[r.val] = s.x[r.val] - 1

/-- Exactly two pixels are lit, one at the place each of two counters gives. -/
def State.TwoLit (s : State) (p q : Fin Config.numRegs) : Prop :=
  s.litPixels.Perm [s.x[p.val].truncate 8, s.x[q.val].truncate 8]

/-- The contract a boot image must meet (rule R122), of the program that lies at address 0 in `start`. The rule gives it
in prose; what it is taken to say here is DEDUCED (log 2). -/
structure BootContractFrom (start : State) : Prop where
  /-- "It never faults, never executes EXIT". -/
  endless : ∀ s, Alone start s → s.mode ≠ .halted ∧ s.mode ≠ .faulted
  /-- It "loops for ever". -/
  loops : ∃ a, AgainAndAgain start fun s t => s.pc ≠ .addr a ∧ t.pc = .addr a
  /-- "It sets a fixed pixel count": it sets one, and never another. -/
  count : ∃ n, (∃ s, Alone start s ∧ s.npix = n ∧ .displaySetPixelCount n ∈ s.out) ∧
    ∀ s m, Alone start s → .displaySetPixelCount m ∈ s.out → m = n
  /-- It "moves two lit pixels using counters": two pixels stand at two counters, each of which is counted up or down
  for ever, and whatever pair of pixels is lit now, two others are lit later. -/
  chase : ∃ p q : Fin Config.numRegs, p ≠ q ∧
    (AgainAndAgain start (Incremented p) ∨ AgainAndAgain start (Decremented p)) ∧
    (AgainAndAgain start (Incremented q) ∨ AgainAndAgain start (Decremented q)) ∧
    ∀ pair : List Byte, AgainAndAgain start fun _ t => t.TwoLit p q ∧ ¬t.litPixels.Perm pair
  /-- "Counters that it increments and decrements". -/
  counters : (∃ r, AgainAndAgain start (Incremented r)) ∧ ∃ r, AgainAndAgain start (Decremented r)

/-- The contract of the boot image itself: "executed from address 0 with the reset state", by the `run` event
(rules R122, R21), in a block of the given capacity. -/
def BootContract (progMem : Nat) : Prop := BootContractFrom (State.resetWith progMem .locked []).runEvent

/-- The Interpreter is about to execute the instruction whose opcode byte lies at `pc0`, as one step
(40_exit_print.md rule R70, 20_memory.md rule R42), and no other agent's turn comes first. -/
abbrev State.ready (s : State) (pc0 : Nat) : Prop :=
  s.mode = .running ∧ s.pc = .addr pc0 ∧ s.arb = .locked ∧ s.schedule = []

/-- The bytes lie in the Program Store from address `a` on, all of them inside it. -/
abbrev State.holds (s : State) (a : Nat) (bytes : List Byte) : Prop :=
  a + bytes.length ≤ s.progMem ∧ ∀ k : Fin bytes.length, s.mem.read (a + k) = bytes[k]

/-- Wherever these bytes stand at `pc`, the step is the instruction `i`. -/
def StepRuns (bytes : List Byte) (i : Instr) : Prop :=
  ∀ (s : State) (pc0 : Nat) (rest : List Byte),
    s.ready pc0 → s.stream pc0 = bytes ++ rest → step s = exec i s

/-- Wherever the store ends right after these bytes, which stand at `pc`, the step is the fault `FetchOutOfBounds` at
the field of `n` bytes that begins `off` bytes after the opcode byte, and changes nothing else
(60_exceptions.md rules R102, R107). -/
def StepFaults (bytes : List Byte) (off n : Nat) : Prop :=
  ∀ (s : State) (pc0 : Nat), s.ready pc0 → s.stream pc0 = bytes →
    step s = .next { s with
      pc := .addr (pc0 + off)
      fault := some (.fetchOutOfBounds pc0 (pc0 + off) n)
      mode := .faulted
      fetching := none }

end Sys2Proof.Machine
end

