-- ==== Sys2Proof/Certificates/Slice0/Obligations.lean ====
section
/-! DEFINITION. The statements for the provers. Each docstring names the rule or the section of spec/ it formalises;
where a clause rests on a choice of the model's it says so and names the log entry. -/

open Sys2Proof Sys2Proof.Machine

/-! ### Encoding -/

/-- Every well-formed instruction, with every operand at every value its encoding admits, is what its bytes decode to,
whatever follows them (30_encoding.md sections 1, 3 and 5; the opcode numbers are the spec's decision D1, log 12). -/
def Obligations.DecodeEncodeRoundTrip : Prop :=
  ∀ (i : Instr) (rest : List Byte), i.wf = true → decode (encode i ++ rest) = .ok (i, rest)

/-- What decodes is the encoding of the instruction it decodes to, and the instruction is well-formed: no two
encodings stand for one instruction, and no bit is dropped (30_encoding.md sections 1 and 5). -/
def Obligations.DecodedBytesAreTheEncoding : Prop :=
  ∀ (bytes : List Byte) (i : Instr) (rest : List Byte),
    decode bytes = .ok (i, rest) → bytes = encode i ++ rest ∧ i.wf = true

/-- Words written out from the encodings of 30_encoding.md rule R52 decode to the instructions they stand for. -/
def Obligations.WrittenOutWordsDecode : Prop :=
  decode [0x00] = .ok (.exit, []) ∧
  decode [0x01, 0x48, 0x69, 0x25, 0x64, 0x00] = .ok (.print [0x48, 0x69, 0x25, 0x64], []) ∧
  decode [0x02, 0x01, 0xFC, 0xFF] = .ok (.set 1 (.reg 0), []) ∧
  decode [0x04, 0x00, 0x01, 0x00] = .ok (.sub 0 (.lit 1), []) ∧
  decode [0x05, 0x3C, 0xFC, 0xFF, 0x0A, 0x00] = .ok (.cmp .lt (.reg 0) (.lit 10), []) ∧
  decode [0x0A, 0x04, 0x01] = .ok (.jumpCond (.lit 0x0104), []) ∧
  decode [0x0D, 0x02, 0x00, 0x0A, 0x00, 0x14, 0x00, 0xFF, 0xFF] =
    .ok (.ledSetPixel (.lit 2) (.lit 10) (.lit 20) (.reg 3), []) ∧
  decode [0x11, 0x02] = .ok (.unknown 0x11, [0x02])

/-- The decoder fails only where a field does not lie wholly in the given bytes: no encoding is illegal
(30_encoding.md section 4), and the Operand Model's guard never fails (30_encoding.md section 2). -/
def Obligations.DecodeFailsOnlyForMissingBytes : Prop :=
  ∀ (bytes : List Byte) (e : DecodeError), decode bytes = .error e →
    ∃ off n, e = .short off n ∧ (n = 1 ∨ n = 2) ∧ off ≤ bytes.length ∧ bytes.length < off + n

/-- R53: a raw value up to 65531 is a literal, 65532 to 65535 are the registers 0 to 3 in that order; each of the
65536 values has a meaning, so the guard of R54 cannot fail. -/
def Obligations.OperandModelDecodes : Prop :=
  ∀ (s : State) (raw : Word),
    (raw.toNat ≤ 65531 → s.decodeOperand raw = some raw) ∧
    (∀ r : Fin 4, raw.toNat = 65532 + r.val → s.decodeOperand raw = some s.x[r.val])

/-! ### Fetching -/

/-- `Fetch8` and `Fetch16` over the instruction stream are `MemRead` at the stream's address (30_encoding.md section 1,
20_memory.md section 2): the whole access is checked, the low byte comes first, and a failed read consumes nothing. -/
def Obligations.StreamFetchesAreMemReads : Prop :=
  ∀ (s : State) (a off : Nat),
    take8 off (s.stream a) =
      (if a + 1 > s.progMem then .error (.short off 1) else .ok (s.mem.read a, s.stream (a + 1))) ∧
    take16 off (s.stream a) =
      (if a + 2 > s.progMem then .error (.short off 2)
       else .ok (s.mem.read (a + 1) ++ s.mem.read a, s.stream (a + 2))) ∧
    s.memRead8 a = (if a + 1 > s.progMem then none else some (s.mem.read a)) ∧
    s.memRead16 a = (if a + 2 > s.progMem then none else some (s.mem.read (a + 1) ++ s.mem.read a))

/-- A step runs the decoded instruction: with a running Interpreter, no other agent's turn first, and one instruction a
step (`ARB = locked`), the step is `exec` of the instruction the bytes at `pc` decode to; nothing is added around
`exec`, which moves `pc` past the instruction itself (40_exit_print.md section 1). -/
def Obligations.StepRunsTheDecodedInstruction : Prop :=
  ∀ (s : State) (pc0 : Nat) (i : Instr) (rest : List Byte),
    s.ready pc0 → decode (s.stream pc0) = .ok (i, rest) → step s = exec i s

/-- The same from the bytes in the store: an instruction stored whole at `pc` is the instruction the step executes,
whatever lies behind it (40_exit_print.md section 1, 20_memory.md section 4). -/
def Obligations.StoredInstructionRuns : Prop :=
  ∀ (s : State) (pc0 : Nat) (i : Instr),
    s.ready pc0 → i.wf = true → s.holds pc0 (encode i) → step s = exec i s

/-- A field that does not fit the store: the step is the fault `FetchOutOfBounds` with the opcode's address, the failed
read's address and its width; `pc` is left at the failed read, nothing else of the block changes, and the read in truth
does not fit (60_exceptions.md sections 1 and 3, 20_memory.md section 2). -/
def Obligations.FetchFaultIsPrecise : Prop :=
  ∀ (s : State) (pc0 off n : Nat),
    s.ready pc0 → decode (s.stream pc0) = .error (.short off n) →
      step s = .next { s with
        pc := .addr (pc0 + off)
        fault := some (.fetchOutOfBounds pc0 (pc0 + off) n)
        mode := .faulted
        fetching := none } ∧
      pc0 + off + n > s.progMem ∧ (pc0 ≤ s.progMem → pc0 + off ≤ s.progMem)

/-- A jump to a target outside the store succeeds, and the next step faults at the target (43_sleep_jump.md section 2,
70_reset_and_hazards.md section 3). -/
def Obligations.JumpOutOfTheStoreFaultsOneStepLater : Prop :=
  ∀ (s : State) (pc0 : Nat) (a : Operand),
    s.ready pc0 → a.wf = true → s.holds pc0 (encode (.jump a)) → s.progMem ≤ (s.value a).toNat →
      step s = .next { s with pc := .addr (s.value a).toNat } ∧
      step { s with pc := .addr (s.value a).toNat } = .next { s with
        pc := .addr (s.value a).toNat
        fault := some (.fetchOutOfBounds (s.value a).toNat (s.value a).toNat 1)
        mode := .faulted
        fetching := none }

/-- Turns are taken from the head of the schedule, the model's own record of who moves next (log 3): an input event is
one step of its own, a Loader's turn too, and an Interpreter's turn is the decoded instruction or, where a field does not
fit the store, the fault `FetchOutOfBounds`, whatever turns come after it (00_scope.md section 6, 20_memory.md section 4,
60_exceptions.md sections 1 and 3). The fault drops the record of a half-fetched instruction (log 14). -/
def Obligations.ScheduledTurnsAreTaken : Prop :=
  ∀ (s : State) (turn : Turn) (later : List Turn), s.schedule = turn :: later →
    (∀ e, turn = .input e → step s = .next ({ s with schedule := later }.inputEvent e)) ∧
    (∀ k, turn = .loader k → step s = .next ({ s with schedule := later }.loaderWrite k)) ∧
    (∀ pc0 i rest, turn = .interp → s.mode = .running → s.pc = .addr pc0 → s.arb = .locked →
      decode (s.stream pc0) = .ok (i, rest) → step s = exec i { s with schedule := later }) ∧
    (∀ pc0 off n, turn = .interp → s.mode = .running → s.pc = .addr pc0 → s.arb = .locked →
      decode (s.stream pc0) = .error (.short off n) → step s = .next { s with
        schedule := later
        pc := .addr (pc0 + off)
        fault := some (.fetchOutOfBounds pc0 (pc0 + off) n)
        mode := .faulted
        fetching := none })

/-- In every mode but `Running` the Interpreter has no step (40_exit_print.md section 1): its turn changes nothing,
whether nothing is scheduled or its turn stands before others. That the block then stays as it is, as a next state with
the turn used up, is the model's choice (log 4). -/
def Obligations.NoInstructionOutsideRunning : Prop :=
  ∀ s : State, s.mode ≠ .running → (s.schedule = [] ∨ ∃ later, s.schedule = .interp :: later) →
    step s = .next { s with schedule := s.schedule.tail }

/-! ### The instructions: what each does, which bytes spell it, and where its fetches fail

Each docstring names its rule. The opcode bytes and CMP's op bytes are the spec's decisions D1 and D11 (log 12). -/

/-- R71, EXIT: `mode` becomes `Halted` and `pc` stands after the EXIT; nothing else changes; only the opcode fetch can
fail; no other instruction halts the run. -/
def Obligations.ExitHalts : Prop :=
  (∀ (s : State) (pc0 : Nat), s.pc = .addr pc0 →
    exec .exit s = .next { s with pc := .addr (pc0 + 1), mode := .halted }) ∧
  (∀ (i : Instr) (s t : State), exec i s = .next t → t.mode = .halted → s.mode = .halted ∨ i = .exit) ∧
  StepRuns [0x00] .exit ∧ StepFaults [] 0 1

/-- R72, PRINT: the raw string and the four registers are emitted and `pc` goes past the terminator; without a
terminator inside the store the fetch at its end faults and nothing is emitted (the event is the spec's decision D15,
log 19). -/
def Obligations.PrintEmitsStringAndRegisters : Prop :=
  (∀ (s : State) (pc0 : Nat) (str : List Byte), s.pc = .addr pc0 →
    exec (.print str) s = .next { s with
      pc := .addr (pc0 + 2 + str.length)
      out := s.out ++ [.print str s.x[0] s.x[1] s.x[2] s.x[3]] }) ∧
  (∀ str : List Byte, 0#8 ∉ str → StepRuns (0x01 :: (str ++ [0#8])) (.print str)) ∧
  StepFaults [] 0 1 ∧
  (∀ str : List Byte, 0#8 ∉ str → StepFaults (0x01 :: str) (1 + str.length) 1)

/-- R75, SET: the register of the raw index takes the operand's value; an index of 4 or more is `BadRegIndex` after all
four bytes have been fetched, and writes no register (the rule's text; the spec's decision D9, log 20). -/
def Obligations.SetAssignsTheRegister : Prop :=
  (∀ (s : State) (pc0 : Nat) (idx : Byte) (a : Operand), s.pc = .addr pc0 →
    (∀ h : idx.toNat < 4,
      exec (.set idx a) s = .next { s with pc := .addr (pc0 + 4), x := s.x.set idx.toNat (s.value a) h }) ∧
    (4 ≤ idx.toNat → exec (.set idx a) s = .next { s with
      pc := .addr (pc0 + 4), fault := some (.badRegIndex pc0 idx), mode := .faulted, fetching := none })) ∧
  (∀ (idx lo hi : Byte) (a : Operand), Operand.ofRaw (hi ++ lo) = some a →
    StepRuns [0x02, idx, lo, hi] (.set idx a)) ∧
  StepFaults [] 0 1 ∧ StepFaults [0x02] 1 1 ∧
  ∀ idx lo : Byte, StepFaults [0x02, idx] 2 2 ∧ StepFaults [0x02, idx, lo] 2 2

/-- R76, ADD: the sum modulo 65536, the operand read before the write; faults as SET. -/
def Obligations.AddWrapsModulo65536 : Prop :=
  (∀ (s : State) (pc0 : Nat) (idx : Byte) (a : Operand), s.pc = .addr pc0 →
    (∀ h : idx.toNat < 4,
      exec (.add idx a) s = .next { s with
        pc := .addr (pc0 + 4)
        x := s.x.set idx.toNat (BitVec.ofNat 16 ((s.x[idx.toNat].toNat + (s.value a).toNat) % 65536)) h }) ∧
    (4 ≤ idx.toNat → exec (.add idx a) s = .next { s with
      pc := .addr (pc0 + 4), fault := some (.badRegIndex pc0 idx), mode := .faulted, fetching := none })) ∧
  (∀ (idx lo hi : Byte) (a : Operand), Operand.ofRaw (hi ++ lo) = some a →
    StepRuns [0x03, idx, lo, hi] (.add idx a)) ∧
  StepFaults [] 0 1 ∧ StepFaults [0x03] 1 1 ∧
  ∀ idx lo : Byte, StepFaults [0x03, idx] 2 2 ∧ StepFaults [0x03, idx, lo] 2 2

/-- R77, SUB: the difference modulo 65536, the operand read before the write; faults as SET. -/
def Obligations.SubWrapsModulo65536 : Prop :=
  (∀ (s : State) (pc0 : Nat) (idx : Byte) (a : Operand), s.pc = .addr pc0 →
    (∀ h : idx.toNat < 4,
      exec (.sub idx a) s = .next { s with
        pc := .addr (pc0 + 4)
        x := s.x.set idx.toNat (BitVec.ofNat 16 ((s.x[idx.toNat].toNat + 65536 - (s.value a).toNat) % 65536)) h }) ∧
    (4 ≤ idx.toNat → exec (.sub idx a) s = .next { s with
      pc := .addr (pc0 + 4), fault := some (.badRegIndex pc0 idx), mode := .faulted, fetching := none })) ∧
  (∀ (idx lo hi : Byte) (a : Operand), Operand.ofRaw (hi ++ lo) = some a →
    StepRuns [0x04, idx, lo, hi] (.sub idx a)) ∧
  StepFaults [] 0 1 ∧ StepFaults [0x04] 1 1 ∧
  ∀ idx lo : Byte, StepFaults [0x04, idx] 2 2 ∧ StepFaults [0x04, idx, lo] 2 2

/-- R80, CMP with one of its four op bytes: `flag` takes the unsigned comparison, `pc` advances by 6 and nothing else
changes. (That `pc` advances by 6 for an unknown op byte too is the next statement's.) -/
def Obligations.CmpComparesUnsigned : Prop :=
  (∀ (s : State) (pc0 : Nat) (a b : Operand), s.pc = .addr pc0 →
    exec (.cmp .eq a b) s = .next { s with pc := .addr (pc0 + 6), flag := (s.value a).toNat == (s.value b).toNat } ∧
    exec (.cmp .gt a b) s = .next { s with
      pc := .addr (pc0 + 6), flag := decide ((s.value a).toNat > (s.value b).toNat) } ∧
    exec (.cmp .lt a b) s = .next { s with
      pc := .addr (pc0 + 6), flag := decide ((s.value a).toNat < (s.value b).toNat) } ∧
    exec (.cmp .ne a b) s = .next { s with pc := .addr (pc0 + 6), flag := (s.value a).toNat != (s.value b).toNat }) ∧
  (∀ (alo ahi blo bhi : Byte) (a b : Operand),
    Operand.ofRaw (ahi ++ alo) = some a → Operand.ofRaw (bhi ++ blo) = some b →
    StepRuns [0x05, 0x3D, alo, ahi, blo, bhi] (.cmp .eq a b) ∧
    StepRuns [0x05, 0x3E, alo, ahi, blo, bhi] (.cmp .gt a b) ∧
    StepRuns [0x05, 0x3C, alo, ahi, blo, bhi] (.cmp .lt a b) ∧
    StepRuns [0x05, 0x21, alo, ahi, blo, bhi] (.cmp .ne a b)) ∧
  StepFaults [] 0 1 ∧ StepFaults [0x05] 1 1 ∧
  ∀ cop alo ahi blo : Byte,
    StepFaults [0x05, cop] 2 2 ∧ StepFaults [0x05, cop, alo] 2 2 ∧
    StepFaults [0x05, cop, alo, ahi] 4 2 ∧ StepFaults [0x05, cop, alo, ahi, blo] 4 2

/-- CMP with any other op byte: consumed whole, `flag` keeps its value. The source says nothing of such a byte; this is
the spec's own choice (42_compare.md section 4, decision D10; log 10). -/
def Obligations.CmpUnknownOpKeepsTheFlag : Prop :=
  ∀ (cop : Byte), cop ≠ 0x3D → cop ≠ 0x3E → cop ≠ 0x3C → cop ≠ 0x21 →
    (∀ (s : State) (pc0 : Nat) (a b : Operand), s.pc = .addr pc0 →
      exec (.cmp (.other cop) a b) s = .next { s with pc := .addr (pc0 + 6) }) ∧
    (∀ (alo ahi blo bhi : Byte) (a b : Operand),
      Operand.ofRaw (ahi ++ alo) = some a → Operand.ofRaw (bhi ++ blo) = some b →
      StepRuns [0x05, cop, alo, ahi, blo, bhi] (.cmp (.other cop) a b))

/-- R81, CMPZ: `flag` says whether the whole 16-bit operand is 0. -/
def Obligations.CmpzTestsForZero : Prop :=
  (∀ (s : State) (pc0 : Nat) (a : Operand), s.pc = .addr pc0 →
    exec (.cmpz a) s = .next { s with pc := .addr (pc0 + 3), flag := (s.value a).toNat == 0 }) ∧
  (∀ (lo hi : Byte) (a : Operand), Operand.ofRaw (hi ++ lo) = some a → StepRuns [0x06, lo, hi] (.cmpz a)) ∧
  StepFaults [] 0 1 ∧ StepFaults [0x06] 1 2 ∧ ∀ lo : Byte, StepFaults [0x06, lo] 1 2

/-- R82, CMPNZ: `flag` says whether the whole 16-bit operand is not 0. -/
def Obligations.CmpnzTestsForNonzero : Prop :=
  (∀ (s : State) (pc0 : Nat) (a : Operand), s.pc = .addr pc0 →
    exec (.cmpnz a) s = .next { s with pc := .addr (pc0 + 3), flag := (s.value a).toNat != 0 }) ∧
  (∀ (lo hi : Byte) (a : Operand), Operand.ofRaw (hi ++ lo) = some a → StepRuns [0x07, lo, hi] (.cmpnz a)) ∧
  StepFaults [] 0 1 ∧ StepFaults [0x07] 1 2 ∧ ∀ lo : Byte, StepFaults [0x07, lo] 1 2

/-- R85, SLEEP: the full 16-bit value is handed out as `Sleep(ms)` and the core waits in `WaitSleep` with `pc` past the
SLEEP; 0 is no exception (the wait mode is the spec's decision D16, log 19). -/
def Obligations.SleepSuspends : Prop :=
  (∀ (s : State) (pc0 : Nat) (a : Operand), s.pc = .addr pc0 →
    exec (.sleep a) s = .next { s with
      pc := .addr (pc0 + 3), out := s.out ++ [.sleep (s.value a)], mode := .waitSleep }) ∧
  (∀ (lo hi : Byte) (a : Operand), Operand.ofRaw (hi ++ lo) = some a → StepRuns [0x08, lo, hi] (.sleep a)) ∧
  StepFaults [] 0 1 ∧ StepFaults [0x08] 1 2 ∧ ∀ lo : Byte, StepFaults [0x08, lo] 1 2

/-- R86, JUMP: `pc` becomes the operand's value, an absolute byte address, without validation. -/
def Obligations.JumpSetsThePc : Prop :=
  (∀ (s : State) (pc0 : Nat) (a : Operand), s.pc = .addr pc0 →
    exec (.jump a) s = .next { s with pc := .addr (s.value a).toNat }) ∧
  (∀ (lo hi : Byte) (a : Operand), Operand.ofRaw (hi ++ lo) = some a → StepRuns [0x09, lo, hi] (.jump a)) ∧
  StepFaults [] 0 1 ∧ StepFaults [0x09] 1 2 ∧ ∀ lo : Byte, StepFaults [0x09, lo] 1 2

/-- R87, JUMP_COND: taken exactly if `flag` is true, which it keeps. -/
def Obligations.JumpCondFollowsTheFlag : Prop :=
  (∀ (s : State) (pc0 : Nat) (a : Operand), s.pc = .addr pc0 →
    (s.flag = true → exec (.jumpCond a) s = .next { s with pc := .addr (s.value a).toNat }) ∧
    (s.flag = false → exec (.jumpCond a) s = .next { s with pc := .addr (pc0 + 3) })) ∧
  (∀ (lo hi : Byte) (a : Operand), Operand.ofRaw (hi ++ lo) = some a → StepRuns [0x0A, lo, hi] (.jumpCond a)) ∧
  StepFaults [] 0 1 ∧ StepFaults [0x0A] 1 2 ∧ ∀ lo : Byte, StepFaults [0x0A, lo] 1 2

/-- R90, LED_CLEAR: emits `DisplayClear`; `npix` is not changed. -/
def Obligations.LedClearEmits : Prop :=
  (∀ (s : State) (pc0 : Nat), s.pc = .addr pc0 →
    exec .ledClear s = .next { s with pc := .addr (pc0 + 1), out := s.out ++ [.displayClear] }) ∧
  StepRuns [0x0B] .ledClear ∧ StepFaults [] 0 1

/-- R91, LED_SET_N: the low byte of the operand is emitted as the pixel count and kept in `npix`. -/
def Obligations.LedSetNSetsThePixelCount : Prop :=
  (∀ (s : State) (pc0 : Nat) (a : Operand), s.pc = .addr pc0 →
    exec (.ledSetN a) s = .next { s with
      pc := .addr (pc0 + 3)
      out := s.out ++ [.displaySetPixelCount (BitVec.ofNat 8 ((s.value a).toNat % 256))]
      npix := BitVec.ofNat 8 ((s.value a).toNat % 256) }) ∧
  (∀ (lo hi : Byte) (a : Operand), Operand.ofRaw (hi ++ lo) = some a → StepRuns [0x0C, lo, hi] (.ledSetN a)) ∧
  StepFaults [] 0 1 ∧ StepFaults [0x0C] 1 2 ∧ ∀ lo : Byte, StepFaults [0x0C, lo] 1 2

/-- R92, LED_SET_PIXEL: the low bytes of the four operands, in the order index, r, g, b; the index is not compared with
`npix`. -/
def Obligations.LedSetPixelEmits : Prop :=
  (∀ (s : State) (pc0 : Nat) (i r g b : Operand), s.pc = .addr pc0 →
    exec (.ledSetPixel i r g b) s = .next { s with
      pc := .addr (pc0 + 9)
      out := s.out ++ [.displaySetPixel (BitVec.ofNat 8 ((s.value i).toNat % 256))
        (BitVec.ofNat 8 ((s.value r).toNat % 256)) (BitVec.ofNat 8 ((s.value g).toNat % 256))
        (BitVec.ofNat 8 ((s.value b).toNat % 256))] }) ∧
  (∀ (ilo ihi rlo rhi glo ghi blo bhi : Byte) (i r g b : Operand),
    Operand.ofRaw (ihi ++ ilo) = some i → Operand.ofRaw (rhi ++ rlo) = some r →
    Operand.ofRaw (ghi ++ glo) = some g → Operand.ofRaw (bhi ++ blo) = some b →
    StepRuns [0x0D, ilo, ihi, rlo, rhi, glo, ghi, blo, bhi] (.ledSetPixel i r g b)) ∧
  StepFaults [] 0 1 ∧ StepFaults [0x0D] 1 2 ∧
  ∀ ilo ihi rlo rhi glo ghi blo : Byte,
    StepFaults [0x0D, ilo] 1 2 ∧ StepFaults [0x0D, ilo, ihi] 3 2 ∧ StepFaults [0x0D, ilo, ihi, rlo] 3 2 ∧
    StepFaults [0x0D, ilo, ihi, rlo, rhi] 5 2 ∧ StepFaults [0x0D, ilo, ihi, rlo, rhi, glo] 5 2 ∧
    StepFaults [0x0D, ilo, ihi, rlo, rhi, glo, ghi] 7 2 ∧ StepFaults [0x0D, ilo, ihi, rlo, rhi, glo, ghi, blo] 7 2

/-- R93, LED_SYNC: always a waiting sync, and the core waits in `WaitSync` with `pc` past the LED_SYNC; nothing is
executed and nothing emitted until an event comes (the wait mode is the spec's decision D16, log 19). That an
Interpreter's turn in `WaitSync` is a next state with the turn used up is the model's choice (log 4): the spec gives the
Interpreter no step there. -/
def Obligations.LedSyncWaits : Prop :=
  (∀ (s : State) (pc0 : Nat), s.pc = .addr pc0 →
    exec .ledSync s = .next { s with
      pc := .addr (pc0 + 1), out := s.out ++ [.displaySync true], mode := .waitSync }) ∧
  (∀ (s : State) (later : List Turn), s.mode = .waitSync → s.schedule = .interp :: later →
    step s = .next { s with schedule := later }) ∧
  StepRuns [0x0E] .ledSync ∧ StepFaults [] 0 1

/-- R94, LED_BLUR: the radius is the full 16-bit value clamped to 1 to 4 (the spec's decision D14, log 11). -/
def Obligations.LedBlurClampsTheRadius : Prop :=
  (∀ (s : State) (pc0 : Nat) (a : Operand), s.pc = .addr pc0 →
    exec (.ledBlur a) s = .next { s with
      pc := .addr (pc0 + 3)
      out := s.out ++ [.displayBlur (if (s.value a).toNat < 1 then 1 else if (s.value a).toNat ≤ 4 then (s.value a).toNat
        else 4)] }) ∧
  (∀ (lo hi : Byte) (a : Operand), Operand.ofRaw (hi ++ lo) = some a → StepRuns [0x0F, lo, hi] (.ledBlur a)) ∧
  StepFaults [] 0 1 ∧ StepFaults [0x0F] 1 2 ∧ ∀ lo : Byte, StepFaults [0x0F, lo] 1 2

/-- R95, LED_FILL: one `DisplaySetPixel` for every index below `npix`, ascending, all with the low bytes of the three
operands; none when `npix` is 0 (where the count is kept and the order: the spec's decision D13, log 9). -/
def Obligations.LedFillSetsEveryActivePixel : Prop :=
  (∀ (s : State) (pc0 : Nat) (r g b : Operand), s.pc = .addr pc0 →
    ∃ es : List OutEvent,
      exec (.ledFill r g b) s = .next { s with pc := .addr (pc0 + 7), out := s.out ++ es } ∧
      es.length = s.npix.toNat ∧
      ∀ k (h : k < es.length), es[k] = .displaySetPixel (BitVec.ofNat 8 k)
        (BitVec.ofNat 8 ((s.value r).toNat % 256)) (BitVec.ofNat 8 ((s.value g).toNat % 256))
        (BitVec.ofNat 8 ((s.value b).toNat % 256))) ∧
  (∀ (rlo rhi glo ghi blo bhi : Byte) (r g b : Operand),
    Operand.ofRaw (rhi ++ rlo) = some r → Operand.ofRaw (ghi ++ glo) = some g → Operand.ofRaw (bhi ++ blo) = some b →
    StepRuns [0x10, rlo, rhi, glo, ghi, blo, bhi] (.ledFill r g b)) ∧
  StepFaults [] 0 1 ∧ StepFaults [0x10] 1 2 ∧
  ∀ rlo rhi glo ghi blo : Byte,
    StepFaults [0x10, rlo] 1 2 ∧ StepFaults [0x10, rlo, rhi] 3 2 ∧ StepFaults [0x10, rlo, rhi, glo] 3 2 ∧
    StepFaults [0x10, rlo, rhi, glo, ghi] 5 2 ∧ StepFaults [0x10, rlo, rhi, glo, ghi, blo] 5 2

/-- R98, UNKNOWN: every opcode byte from 0x11 to 0xFF is one byte long and changes `pc` only. -/
def Obligations.UnknownOpcodeOnlyAdvances : Prop :=
  (∀ (s : State) (pc0 : Nat) (opc : Byte), s.pc = .addr pc0 →
    exec (.unknown opc) s = .next { s with pc := .addr (pc0 + 1) }) ∧
  (∀ opc : Byte, 0x11 ≤ opc.toNat → StepRuns [opc] (.unknown opc)) ∧ StepFaults [] 0 1

/-! ### What instructions leave alone -/

/-- No instruction writes the Program Store, and none touches the Loader's staging buffer, the parameters or the other
agents' turns (20_memory.md sections 1 and 3, 10_state.md section 6). -/
def Obligations.InstructionsLeaveMemoryAlone : Prop :=
  ∀ (i : Instr) (s t : State), exec i s = .next t →
    (∀ a : Nat, t.mem.read a = s.mem.read a) ∧ t.stage = s.stage ∧ t.stageLen = s.stageLen ∧
      t.pending = s.pending ∧ t.progMem = s.progMem ∧ t.arb = s.arb ∧ t.schedule = s.schedule

/-- No instruction reads the Program Store as data: what it does to everything else does not depend on the store's
contents (20_memory.md section 1). -/
def Obligations.InstructionsDoNotReadTheStore : Prop :=
  ∀ (i : Instr) (s t : State) (m : Memory), exec i s = .next t → exec i { s with mem := m } = .next { t with mem := m }

/-- A register changes only by SET, ADD or SUB with its number as raw index (10_state.md section 2). -/
def Obligations.RegistersChangeOnlyByTheirIndex : Prop :=
  ∀ (i : Instr) (s t : State) (r : Fin 4), exec i s = .next t → t.x[r.val] ≠ s.x[r.val] →
    ∃ (idx : Byte) (a : Operand), idx.toNat = r.val ∧ (i = .set idx a ∨ i = .add idx a ∨ i = .sub idx a)

/-- `flag` is written by CMP, CMPZ and CMPNZ only, `npix` by LED_SET_N only (10_state.md sections 4 and 5). -/
def Obligations.FlagAndPixelCountWriters : Prop :=
  ∀ (i : Instr) (s t : State), exec i s = .next t →
    (t.flag ≠ s.flag → (∃ op a b, i = .cmp op a b) ∨ (∃ a, i = .cmpz a) ∨ ∃ a, i = .cmpnz a) ∧
    (t.npix ≠ s.npix → ∃ a, i = .ledSetN a)

/-- Only PRINT, SLEEP and the display opcodes emit; what was emitted stays; `mode` changes only by EXIT, SLEEP,
LED_SYNC and a fault (10_state.md sections 5 and 7), and `fault` only by SET, ADD or SUB with an index of 4 or more
(41_register_alu.md section 5, 60_exceptions.md section 1; the spec's decision D9, log 20). -/
def Obligations.OutputModeAndFaultWriters : Prop :=
  ∀ (i : Instr) (s t : State), exec i s = .next t →
    (∃ es, t.out = s.out ++ es ∧ ∀ e ∈ es, i.wf = true → e.wf = true) ∧
    (t.out ≠ s.out → (∃ str, i = .print str) ∨ (∃ a, i = .sleep a) ∨ i = .ledClear ∨ (∃ a, i = .ledSetN a) ∨
      (∃ p r g b, i = .ledSetPixel p r g b) ∨ i = .ledSync ∨ (∃ a, i = .ledBlur a) ∨ ∃ r g b, i = .ledFill r g b) ∧
    (t.mode ≠ s.mode → (i = .exit ∧ t.mode = .halted) ∨ ((∃ a, i = .sleep a) ∧ t.mode = .waitSleep) ∨
      (i = .ledSync ∧ t.mode = .waitSync) ∨ (t.mode = .faulted ∧ t.fault ≠ none)) ∧
    (t.fault ≠ s.fault → ∃ (idx : Byte) (a : Operand), 4 ≤ idx.toNat ∧ (i = .set idx a ∨ i = .add idx a ∨ i = .sub idx a))

/-- After the step `pc` is just past the instruction's last byte, unless the instruction is a taken jump
(40_exit_print.md section 1). -/
def Obligations.PcGoesPastTheInstruction : Prop :=
  ∀ (i : Instr) (s t : State) (pc0 : Nat), s.pc = .addr pc0 → exec i s = .next t →
    (∀ a, i ≠ .jump a) → (∀ a, i = .jumpCond a → s.flag = false) → t.pc = .addr (pc0 + (encode i).length)

/-! ### Faults -/

/-- R107: a step that enters a fault changes nothing but `fault`, `mode`, the `pc` advances of the successful
fetches and, for a Loader fault, the cleared staging buffer: registers, `flag`, `npix`, `mem` and `out` keep the values
they had before it; afterwards every turn but a reset leaves every piece of state as it is. The guard (code 3) is never
what is raised. The state after a fault is the spec's decisions D7 and D21 (log 19); that a turn after the fault is a
next state with the turn used up is the model's choice (log 4). -/
def Obligations.FaultEntryKeepsTheRest : Prop :=
  ∀ (s t : State) (f : FaultRecord), step s = .next t → s.fault = none → t.fault = some f →
    t.mode = .faulted ∧ t.x = s.x ∧ t.flag = s.flag ∧ t.npix = s.npix ∧ t.out = s.out ∧
    (∀ a : Nat, t.mem.read a = s.mem.read a) ∧
    (4 ≤ f.code → t.pc = s.pc ∧ t.stage = List.replicate 256 0 ∧ t.stageLen = 0) ∧
    (f.code < 4 → t.stage = s.stage ∧ t.stageLen = s.stageLen) ∧
    (∀ pc0 addr n, f = .fetchOutOfBounds pc0 addr n → t.pc = .addr addr) ∧
    (∀ pc0 idx, f = .badRegIndex pc0 idx → t.pc = .addr (pc0 + 4)) ∧ f.code ≠ 3 ∧
    ((∀ later, t.schedule ≠ .input .reset :: later) → step t = .next { t with schedule := t.schedule.tail })

/-- `Faulted` has no way out but `reset`, which discards the fault and every other piece of state; no second fault
occurs (60_exceptions.md section 4, 70_reset_and_hazards.md section 1). Two clauses are the model's own: every other
turn is a next state that leaves every piece of the block's state as it is, the turn used up (log 4), and the two
parameters and the schedule of what comes next survive a reset (log 15). -/
def Obligations.FaultedIsLeftOnlyByReset : Prop :=
  ∀ s : State, s.mode = .faulted →
    ((∀ later, s.schedule ≠ .input .reset :: later) → step s = .next { s with schedule := s.schedule.tail }) ∧
    ∀ later, s.schedule = .input .reset :: later → step s = .next (State.resetWith s.progMem s.arb later)

/-! ### Reset and the input events -/

/-- The `reset` event, in any mode, gives every piece of state its reset value (10_state.md section 8,
70_reset_and_hazards.md section 1). The source gives no reset value for `flag` and `npix`: false and 0 are the spec's
decisions D12 and D13 (log 8, log 9); that the parameters and the schedule survive is the model's reading (log 15). -/
def Obligations.ResetEventReinitialises : Prop :=
  ∀ (s : State) (later : List Turn), s.schedule = .input .reset :: later →
    step s = .next
      { x := #v[0, 0, 0, 0], pc := .unset, flag := false, mode := .unstarted, fault := none, npix := 0,
        stage := List.replicate 256 0, stageLen := 0, mem := [], out := [], progMem := s.progMem, arb := s.arb,
        schedule := later, fetching := none, pending := [] }

/-- The machine's state after reset: registers 0, `pc` unset, Unstarted, no fault, staging buffer clear, nothing
emitted, and every byte of the store that of the boot image (10_state.md section 8); `flag` and `npix` are the spec's
decisions D12 and D13 (log 8, log 9), the capacity and the arbitration the model's choice (log 1, log 13). -/
def Obligations.ResetStateValues : Prop :=
  (∀ r : Fin 4, State.reset.x[r.val] = 0) ∧ State.reset.pc = .unset ∧ State.reset.mode = .unstarted ∧
  State.reset.fault = none ∧ State.reset.stage = List.replicate 256 0 ∧ State.reset.stageLen = 0 ∧
  State.reset.out = [] ∧ (∀ a : Nat, State.reset.mem.read a = Config.bootImage a) ∧
  State.reset.flag = false ∧ State.reset.npix = 0 ∧ 1 ≤ State.reset.progMem ∧ State.reset.progMem ≤ 65536 ∧
  State.reset.arb = .locked

/-- R21, the `run` event by mode. -/
def Obligations.RunEventByMode : Prop :=
  ∀ (s : State) (later : List Turn), s.schedule = .input .run :: later →
    (s.mode = .unstarted → step s = .next { s with schedule := later, pc := .addr 0, mode := .running }) ∧
    (s.mode = .halted → step s = .next { s with schedule := later, mode := .running }) ∧
    (s.mode ≠ .unstarted → s.mode ≠ .halted → step s = .next { s with schedule := later })

/-- The completion events (10_state.md section 7): `wake` ends `WaitSleep`, `sync_done` ends `WaitSync`, and in any
other mode each is ignored. That one owed from before a `reset` ends a wait begun after it is the model's choice
(log 23). -/
def Obligations.CompletionEventsEndTheirWait : Prop :=
  ∀ (s : State) (later : List Turn),
    (s.schedule = .input .wake :: later →
      (s.mode = .waitSleep → step s = .next { s with schedule := later, mode := .running }) ∧
      (s.mode ≠ .waitSleep → step s = .next { s with schedule := later })) ∧
    (s.schedule = .input .syncDone :: later →
      (s.mode = .waitSync → step s = .next { s with schedule := later, mode := .running }) ∧
      (s.mode ≠ .waitSync → step s = .next { s with schedule := later }))

/-- An EXIT followed by a `run` event resumes at the byte after the EXIT (10_state.md section 7, 40_exit_print.md
section 2). -/
def Obligations.RunResumesAfterExit : Prop :=
  ∀ (s : State) (pc0 : Nat) (later : List Turn),
    s.mode = .running → s.pc = .addr pc0 → s.arb = .locked → s.schedule = .interp :: .input .run :: later →
    s.holds pc0 (encode .exit) →
    Sys2Proof.core.run 1 s =
      .next { s with schedule := .input .run :: later, pc := .addr (pc0 + 1), mode := .halted } ∧
    Sys2Proof.core.run 2 s = .next { s with schedule := later, pc := .addr (pc0 + 1) }

/-- Nothing external but `reset` changes a register, `flag`, `npix` or `out`, and nothing external but `reset` and the
first `run` redirects `pc` (60_exceptions.md section 5, 20_memory.md section 3). -/
def Obligations.InputsDoNotRedirectTheProgram : Prop :=
  ∀ (s t : State) (turn : Turn) (later : List Turn),
    s.schedule = turn :: later → turn ≠ .interp → turn ≠ .input .reset → step s = .next t →
    t.x = s.x ∧ t.flag = s.flag ∧ t.npix = s.npix ∧ t.out = s.out ∧
    (t.pc = s.pc ∨ (turn = .input .run ∧ s.mode = .unstarted ∧ t.pc = .addr 0))

/-! ### The Loader -/

/-- R37, `apply_chunk`: the three checks in their order, under both arbitrations (R45: "the bound checks are
unchanged"), then, under `ARB = locked`, the payload written whole, the staging buffer clear in every case, and nothing
else changed. That a fault drops the record of a half-fetched instruction, which only `racy` has, is the model's choice
(log 14). -/
def Obligations.ApplyChunk : Prop :=
  ∀ (s : State) (bytes : List Byte) (later : List Turn),
    s.schedule = .input (.chunk bytes) :: later → s.mode ≠ .faulted → s.pending = [] →
    let offset := (bytes.getD 0 0).toNat + 256 * (bytes.getD 1 0).toNat
    let rejected : FaultRecord → State := fun f => { s with
      schedule := later, fault := some f, mode := .faulted, fetching := none
      stage := List.replicate 256 0, stageLen := 0 }
    (bytes.length < 2 → step s = .next (rejected (.loaderTooShort bytes.length))) ∧
    (bytes.length > 256 → step s = .next (rejected (.loaderTooLong bytes.length))) ∧
    (2 ≤ bytes.length → bytes.length ≤ 256 → offset + (bytes.length - 2) > s.progMem →
      step s = .next (rejected (.loaderOverflow offset (bytes.length - 2)))) ∧
    (s.arb = .locked → 2 ≤ bytes.length → bytes.length ≤ 256 → offset + (bytes.length - 2) ≤ s.progMem →
      ∃ m : Memory,
        step s = .next { s with schedule := later, mem := m, stage := List.replicate 256 0, stageLen := 0 } ∧
        (∀ k (h : k < (bytes.drop 2).length), m.read (offset + k) = (bytes.drop 2)[k]) ∧
        ∀ a : Nat, a < offset ∨ offset + (bytes.length - 2) ≤ a → m.read a = s.mem.read a)

/-- Applying the same chunk twice leaves the Program Store as applying it once does (20_memory.md section 3). -/
def Obligations.ChunkTwiceIsChunkOnce : Prop :=
  ∀ (s : State) (bytes : List Byte) (later : List Turn),
    s.schedule = .input (.chunk bytes) :: .input (.chunk bytes) :: later → s.arb = .locked → s.pending = [] →
    ∃ t u, step s = .next t ∧ step t = .next u ∧ ∀ a : Nat, u.mem.read a = t.mem.read a

/-- Only the Loader, with the payload of a chunk, and `reset` change a byte of the Program Store (20_memory.md section
1). -/
def Obligations.OnlyTheLoaderWritesTheStore : Prop :=
  ∀ (s t : State) (a : Nat), step s = .next t → t.mem.read a ≠ s.mem.read a →
    ∃ later, s.schedule = .input .reset :: later ∨ (∃ bytes, s.schedule = .input (.chunk bytes) :: later) ∨
      ∃ k, s.schedule = .loader k :: later

/-- A Loader write is seen by the very next fetch, with no action in between (20_memory.md section 4): a chunk that
stores an instruction at the `pc` of a running Interpreter is followed by that instruction. -/
def Obligations.ChunkIsSeenByTheNextFetch : Prop :=
  ∀ (s : State) (pc0 : Nat) (lo hi : Byte) (i : Instr),
    s.mode = .running → s.pc = .addr pc0 → s.arb = .locked → s.pending = [] → i.wf = true →
    s.schedule = [.input (.chunk (lo :: hi :: encode i))] → (encode i).length ≤ 254 →
    lo.toNat + 256 * hi.toNat = pc0 → pc0 + (encode i).length ≤ s.progMem →
    ∃ t u, step s = .next t ∧ step t = .next u ∧ exec i t = .next u

/-! ### The reference profile `ARB = racy` -/

/-- A chunk that passes the checks writes nothing by itself under `racy`: its bytes are staged. Each Loader action then
writes one byte of it, any one that is left, and no other byte, and the last one clears the staging buffer; an action
that names no byte changes nothing; a chunk delivered while another is in progress stays due, its turn writing one byte
of the earlier one (20_memory.md sections 3 and 4). The bookkeeping field `pending`, the turn of a waiting chunk and the
moment at which the staging buffer is cleared are the model's own (log 13, log 14); that an action with nothing to write
is a next state with the turn used up is its choice too (log 4). -/
def Obligations.RacyLoaderWritesByteByByte : Prop :=
  let stagedAs : State → List Host.Cell → List Byte → Nat → Prop := fun t cells stage len =>
    t.pending = cells ∧ (cells ≠ [] → t.stage = stage ∧ t.stageLen = len) ∧
    (cells = [] → t.stage = List.replicate 256 0 ∧ t.stageLen = 0)
  let wrote : State → State → Nat → Byte → Prop := fun s t a b =>
    t = { s with mem := t.mem, pending := t.pending, stage := t.stage, stageLen := t.stageLen } ∧
    t.mem.read a = b ∧ ∀ a', a' ≠ a → t.mem.read a' = s.mem.read a'
  (∀ (s : State) (bytes : List Byte) (later : List Turn),
    s.schedule = .input (.chunk bytes) :: later → s.mode ≠ .faulted → s.arb = .racy → s.pending = [] →
    2 ≤ bytes.length → bytes.length ≤ 256 →
    (bytes.getD 0 0).toNat + 256 * (bytes.getD 1 0).toNat + (bytes.length - 2) ≤ s.progMem →
    ∃ t, step s = .next t ∧
      t = { s with schedule := later, pending := t.pending, stage := t.stage, stageLen := t.stageLen } ∧
      stagedAs t t.pending (bytes ++ s.stage.drop bytes.length) bytes.length ∧ t.pending.length = bytes.length - 2 ∧
      ∀ k (h : k < (bytes.drop 2).length),
        t.pending[k]? = some ((bytes.getD 0 0).toNat + 256 * (bytes.getD 1 0).toNat + k, (bytes.drop 2)[k])) ∧
  (∀ (s : State) (k a : Nat) (b : Byte) (later : List Turn),
    s.schedule = .loader k :: later → s.mode ≠ .faulted → s.pending[k]? = some (a, b) →
    ∃ t, step s = .next t ∧ wrote { s with schedule := later } t a b ∧
      stagedAs t (s.pending.eraseIdx k) s.stage s.stageLen) ∧
  (∀ (s : State) (k : Nat) (later : List Turn),
    s.schedule = .loader k :: later → s.pending[k]? = none → step s = .next { s with schedule := later }) ∧
  ∀ (s : State) (bytes : List Byte) (a : Nat) (b : Byte) (rest : List Host.Cell) (later : List Turn),
    s.schedule = .input (.chunk bytes) :: later → s.mode ≠ .faulted → s.pending = (a, b) :: rest →
    ∃ t, step s = .next t ∧ wrote s t a b ∧ stagedAs t rest s.stage s.stageLen

/-- Under `racy` every byte of the store is, after any step but a reset, the byte it was or one the accepted chunk was
about to write there: a mixture of values that were written, never an invented value (20_memory.md section 4). -/
def Obligations.RacyBytesAreNeverInvented : Prop :=
  ∀ (s t : State) (a : Nat), s.arb = .racy → step s = .next t →
    (∀ later, s.schedule ≠ .input .reset :: later) →
    t.mem.read a = s.mem.read a ∨ (a, t.mem.read a) ∈ s.pending

/-- One action of the byte-by-byte Interpreter of `racy`, whoever moves after it: the byte that comes next is read from
the store as it is at that moment, one at a time; a field that does not fit the store is `FetchOutOfBounds`; an
instruction whose bytes are all fetched is executed. Left alone, these actions do what the one-step Interpreter of
`locked` does: after one for each byte of the instruction and one for its execution, the state is that of the whole
instruction (20_memory.md section 4). The record `fetching` of the bytes read so far, which the actions fill and clear,
is the model's own (log 13), and so is that a 16-bit field is checked before its first byte is read, that a fault drops
the record (log 14), and that `pc` stands at a 16-bit field's first byte until both bytes are read (log 24). -/
def Obligations.RacyUndisturbedIsLocked : Prop :=
  (∀ (s : State) (pc : Nat) (f : Fetching),
    s.mode = .running → s.pc = .addr pc → s.arb = .racy →
    (s.schedule = [] ∨ ∃ later, s.schedule = .interp :: later) →
    (s.fetching = some f ∨ s.fetching = none ∧ f = ⟨pc, []⟩) →
    (∀ i rest, decode f.bytes = .ok (i, rest) →
      step s = exec i { s with schedule := s.schedule.tail, pc := .addr f.pc0, fetching := none }) ∧
    ∀ off n, decode f.bytes = .error (.short off n) →
      (f.pc0 + off + n ≤ s.progMem →
        let bytes := f.bytes ++ [s.mem.read (f.pc0 + f.bytes.length)]
        step s = .next { s with
          schedule := s.schedule.tail
          pc := .addr (f.pc0 + fieldsDone bytes)
          fetching := some ⟨f.pc0, bytes⟩ }) ∧
      (f.pc0 + off + n > s.progMem →
        step s = .next { s with
          schedule := s.schedule.tail
          pc := .addr (f.pc0 + off)
          fault := some (.fetchOutOfBounds f.pc0 (f.pc0 + off) n)
          mode := .faulted
          fetching := none })) ∧
  ∀ (s : State) (pc0 : Nat) (i : Instr),
    s.mode = .running → s.pc = .addr pc0 → s.arb = .racy → s.schedule = [] → s.fetching = none →
    i.wf = true → s.holds pc0 (encode i) →
    ∃ t, exec i s = .next t ∧ Sys2Proof.core.run ((encode i).length + 1) s = .next t

/-! ### Whole-machine properties -/

/-- `PROG_MEM` and `ARB` are parameters: no step changes them (00_scope.md section 4). -/
def Obligations.ParametersNeverChange : Prop :=
  ∀ s t : State, step s = .next t → t.progMem = s.progMem ∧ t.arb = s.arb

/-- The output stream is only ever extended, but for `reset`, which empties it (10_state.md section 7). -/
def Obligations.OutputOnlyGrows : Prop :=
  ∀ s t : State, step s = .next t →
    (∃ es, t.out = s.out ++ es) ∨ ((∃ later, s.schedule = .input .reset :: later) ∧ t.out = [])

/-- The reset state of a block of any capacity in the bounds, under any arbitration and schedule, and `State.reset`
itself, satisfy the invariant (10_state.md sections 5 and 8). -/
def Obligations.ResetSatisfiesInvariant : Prop :=
  State.reset.Inv ∧
  ∀ (progMem : Nat) (arb : Arb) (schedule : List Turn), 1 ≤ progMem → progMem ≤ 65536 →
    (State.resetWith progMem arb schedule).Inv

/-- Every step keeps the invariant: the bounds of `PROG_MEM` and `pc`, the canonical form of the store and that no byte
lies outside it, the legal pairs of `mode`, `pc` and `fault`, the clear staging buffer, the admitted output events, and
that nothing is half done under `locked` (10_state.md sections 3, 5, 6 and 7, 20_memory.md sections 1 and 4). What it
says of the records of half-done work under `racy`, and where `pc` stands within a field, is the model's own (log 13,
log 14, log 24). -/
def Obligations.StepKeepsInvariant : Prop :=
  ∀ s t : State, s.Inv → step s = .next t → t.Inv

/-- Under the invariant every step has a next state: the core knows no third outcome, and the model's own stop is never
met (00_scope.md section 6; log 5). That a turn in which no agent has a move is a next state too is the model's choice
(log 4). -/
def Obligations.StepAlwaysAnswers : Prop :=
  ∀ s : State, s.Inv → ∃ t, step s = .next t

/-! ### The end of a run -/

/-- A run starts only by the `run` event, in `Unstarted` at address 0 or in `Halted` where it stopped, and each such
event starts one (70_reset_and_hazards.md section 5, 10_state.md section 7). -/
def Obligations.RunStartsOnlyByTheRunEvent : Prop :=
  ∀ s t : State,
    (step s = .next t ∧ s.mode.inRun = false ∧ t.mode.inRun = true ↔ StartsRun s t) ∧
    (StartsRun s t → t.mode = .running ∧ (s.mode = .unstarted → t.pc = .addr 0) ∧ (s.mode = .halted → t.pc = s.pc))

/-- What ends a run: its normal end is the execution of an EXIT, byte 0x00, which leaves `mode = Halted`,
`fault = None` and `pc` after the EXIT and changes nothing else of the block; its other end is a fault. A step that
leaves `Running`, `WaitSleep` or `WaitSync` for `Halted` or `Faulted` ends the run, and no other does: a Loader fault
in `Unstarted`, or in `Halted` after a normal end, ends none (70_reset_and_hazards.md section 5). The opcode byte is the
spec's decision D1 (log 12), the turn that is used up and the record of fetched bytes are the model's own (log 3,
log 13). -/
def Obligations.RunEndsByExitOrFault : Prop :=
  ∀ s t : State, s.Inv → step s = .next t →
    (s.runEnd t = some .normal →
      s.mode = .running ∧ t.fault = none ∧ ∃ pc0,
        t = { s with schedule := s.schedule.tail, pc := .addr (pc0 + 1), mode := .halted, fetching := none } ∧
        (s.arb = .locked → s.pc = .addr pc0 ∧ pc0 < s.progMem ∧ s.mem.read pc0 = 0x00) ∧
        (s.arb = .racy → ∃ f, s.fetching = some f ∧ f.pc0 = pc0 ∧ f.bytes.head? = some 0x00)) ∧
    (s.runEnd t = some .fault → s.fault = none ∧ t.fault ≠ none) ∧
    (s.mode = .running ∨ s.mode = .waitSleep ∨ s.mode = .waitSync →
      (s.runEnd t = some .normal ↔ t.mode = .halted) ∧ (s.runEnd t = some .fault ↔ t.mode = .faulted)) ∧
    (s.mode = .unstarted ∨ s.mode = .halted ∨ s.mode = .faulted → s.runEnd t = none)

/-- A run ends in exactly one of three ways: by an EXIT, by a fault, or not at all; and where it ends, its end and its
final state are unique (70_reset_and_hazards.md section 5). The one case beside these, which that section does not
name, is a `reset` in the middle of the run; that it is no end of the run is the model's reading (log 22). A run that
waits for ever goes on by turns in which nothing moves, and that these are next states is the model's choice (log 4). -/
def Obligations.RunEndsInExactlyOneWay : Prop :=
  ∀ start : State, start.Inv → start.mode.inRun = true →
    ((∃ t, RunEndsIn start .normal t) ∨ (∃ t, RunEndsIn start .fault t) ∨ RunGoesOn start ∨ RunIsCutOff start) ∧
    (∀ e e' t t', RunEndsIn start e t → RunEndsIn start e' t' → e = e' ∧ t = t') ∧
    (∀ e t, RunEndsIn start e t → ¬RunGoesOn start ∧ ¬RunIsCutOff start) ∧
    (RunIsCutOff start → ¬RunGoesOn start)
end

