-- ==== Sys2Proof/Laws/Decode.lean ====
section
/-! SUPPORT. The small lemmas of the decoder and the encoder: one per table and per field reader. -/

namespace Sys2Proof

theorem maxLiteral_eq : Config.maxLiteral = 65531 := rfl

/-! ### Opcodes -/

@[simp] theorem Opcode.ofByte_byte (o : Opcode) : Opcode.ofByte o.byte = some o := by cases o <;> rfl

theorem Opcode.byte_of_ofByte {b : Byte} {o : Opcode} (h : Opcode.ofByte b = some o) : b = o.byte := by
  unfold Opcode.ofByte at h
  split at h <;> cases h <;> exact BitVec.eq_of_toNat_eq (by simpa [Opcode.byte])

theorem Opcode.ofByte_eq_none_iff {b : Byte} : Opcode.ofByte b = none ↔ Config.isAssignedOpcode b = false := by
  unfold Opcode.ofByte Config.isAssignedOpcode
  split <;> simp_all
  omega

/-! ### Words and their bytes -/

theorem wordOfBytes_toNat (lo hi : Byte) : (wordOfBytes lo hi).toNat = lo.toNat + 256 * hi.toNat := by
  have h : hi.toNat <<< 8 ||| lo.toNat = hi.toNat <<< 8 + lo.toNat :=
    (Nat.shiftLeft_add_eq_or_of_lt lo.isLt hi.toNat).symm
  rw [wordOfBytes, BitVec.toNat_append, h, Nat.shiftLeft_eq]
  omega

@[simp] theorem bytesOfWord_length (w : Word) : (bytesOfWord w).length = 2 := rfl

theorem wordOfBytes_extract (w : Word) : wordOfBytes (w.extractLsb' 0 8) (w.extractLsb' 8 8) = w := by
  apply BitVec.eq_of_toNat_eq
  rw [wordOfBytes_toNat, BitVec.extractLsb'_toNat, BitVec.extractLsb'_toNat]
  have := w.isLt
  simp [Nat.shiftRight_eq_div_pow]
  omega

theorem bytesOfWord_wordOfBytes (lo hi : Byte) : bytesOfWord (wordOfBytes lo hi) = [lo, hi] := by
  have hlo := lo.isLt
  have hhi := hi.isLt
  simp only [bytesOfWord, List.cons.injEq, and_true]
  constructor <;> apply BitVec.eq_of_toNat_eq <;>
    rw [BitVec.extractLsb'_toNat, wordOfBytes_toNat] <;> simp [Nat.shiftRight_eq_div_pow] <;> omega

/-! ### Operands and comparisons -/

/-- The guard of rule R54 never fails with `N = 4`. -/
theorem Operand.ofRaw_isSome (raw : Word) : (Operand.ofRaw raw).isSome = true := by
  have := raw.isLt
  unfold Operand.ofRaw
  split
  · rfl
  · rw [dif_pos (by simp only [maxLiteral_eq, Config.numRegs]; omega)]
    rfl

theorem Operand.ofRaw_raw {a : Operand} (h : a.wf = true) : Operand.ofRaw a.raw = some a := by
  cases a with
  | lit v => exact if_pos (of_decide_eq_true h)
  | reg r => revert r; decide

theorem Operand.raw_of_ofRaw {raw : Word} {a : Operand} (h : Operand.ofRaw raw = some a) :
    a.raw = raw ∧ a.wf = true := by
  have hr := raw.isLt
  unfold Operand.ofRaw at h
  split at h
  · cases h
    simpa [Operand.raw, Operand.wf]
  · split at h
    · cases h
      refine ⟨BitVec.eq_of_toNat_eq ?_, rfl⟩
      simp only [Operand.raw, BitVec.toNat_ofNat, maxLiteral_eq] at *
      omega
    · cases h

@[simp] theorem CmpOp.byte_ofByte (b : Byte) : (CmpOp.ofByte b).byte = b := by
  unfold CmpOp.ofByte
  repeat' split
  all_goals simp_all [CmpOp.byte]

@[simp] theorem CmpOp.wf_ofByte (b : Byte) : (CmpOp.ofByte b).wf = true := by
  unfold CmpOp.ofByte
  repeat' split
  all_goals simp_all [CmpOp.wf]

theorem CmpOp.ofByte_byte {op : CmpOp} (h : op.wf = true) : CmpOp.ofByte op.byte = op := by
  cases op with
  | other b => simp_all [CmpOp.wf, CmpOp.byte, CmpOp.ofByte]
  | _ => rfl

/-! ### Field readers: when each succeeds and what it consumes -/

@[simp] theorem take8_cons (off : Nat) (b : Byte) (rest : List Byte) : take8 off (b :: rest) = .ok (b, rest) := rfl

theorem take8_ok {off : Nat} {bs rest : List Byte} {b : Byte} (h : take8 off bs = .ok (b, rest)) : bs = b :: rest := by
  cases bs with
  | nil => cases h
  | cons c cs => cases h; rfl

theorem take8_error {off : Nat} {bs : List Byte} {e : DecodeError} (h : take8 off bs = .error e) :
    bs = [] ∧ e = .short off 1 := by
  cases bs with
  | nil => cases h; exact ⟨rfl, rfl⟩
  | cons c cs => cases h

theorem take16_ok {off : Nat} {bs rest : List Byte} {w : Word} (h : take16 off bs = .ok (w, rest)) :
    bs = bytesOfWord w ++ rest := by
  match bs, h with
  | lo :: hi :: cs, h =>
    cases h
    rw [bytesOfWord_wordOfBytes]
    rfl

theorem take16_error {off : Nat} {bs : List Byte} {e : DecodeError} (h : take16 off bs = .error e) :
    bs.length < 2 ∧ e = .short off 2 := by
  match bs, h with
  | [], h => cases h; exact ⟨by decide, rfl⟩
  | [_], h => cases h; exact ⟨Nat.lt_succ_self 1, rfl⟩

@[simp] theorem take16_bytesOfWord (off : Nat) (w : Word) (rest : List Byte) :
    take16 off (bytesOfWord w ++ rest) = .ok (w, rest) := by
  change Except.ok (wordOfBytes _ _, rest) = _
  rw [wordOfBytes_extract]

theorem takeOperand_ok {off : Nat} {bs rest : List Byte} {a : Operand} (h : takeOperand off bs = .ok (a, rest)) :
    bs = bytesOfWord a.raw ++ rest ∧ a.wf = true := by
  unfold takeOperand at h
  split at h
  · cases h
  · rename_i hw
    split at h
    · rename_i ha
      cases h
      exact ⟨(Operand.raw_of_ofRaw ha).1 ▸ take16_ok hw, (Operand.raw_of_ofRaw ha).2⟩
    · cases h

theorem takeOperand_error {off : Nat} {bs : List Byte} {e : DecodeError} (h : takeOperand off bs = .error e) :
    bs.length < 2 ∧ e = .short off 2 := by
  unfold takeOperand at h
  split at h
  · rename_i hw
    cases h
    exact take16_error hw
  · split at h
    · cases h
    · rename_i raw _ _ _ ha
      simpa [ha] using Operand.ofRaw_isSome raw

theorem takeOperand_encoded {a : Operand} (ha : a.wf = true) (off : Nat) (rest : List Byte) :
    takeOperand off (bytesOfWord a.raw ++ rest) = .ok (a, rest) := by
  simp [takeOperand, Operand.ofRaw_raw ha]

theorem takeOperand_bytes {lo hi : Byte} {a : Operand} (ha : Operand.ofRaw (hi ++ lo) = some a) (off : Nat)
    (rest : List Byte) : takeOperand off (lo :: hi :: rest) = .ok (a, rest) := by
  simp [takeOperand, take16, wordOfBytes, ha]

@[simp] theorem takeOperand_nil (off : Nat) : takeOperand off [] = .error (.short off 2) := rfl

@[simp] theorem takeOperand_one (off : Nat) (b : Byte) : takeOperand off [b] = .error (.short off 2) := rfl

theorem takeString_ok {off : Nat} {bs str rest : List Byte} (h : takeString off bs = .ok (str, rest)) :
    bs = str ++ 0#8 :: rest ∧ 0#8 ∉ str := by
  induction bs generalizing off str rest with
  | nil => cases h
  | cons c cs ih =>
    unfold takeString at h
    split at h
    · rename_i hc
      cases h
      exact ⟨by rw [hc, List.nil_append], by simp⟩
    · rename_i hc
      split at h
      · cases h
      · rename_i hs
        cases h
        obtain ⟨rfl, hz⟩ := ih hs
        exact ⟨rfl, by simpa [hz] using Ne.symm hc⟩

theorem takeString_error {off : Nat} {bs : List Byte} {e : DecodeError} (h : takeString off bs = .error e) :
    e = .short (off + bs.length) 1 := by
  induction bs generalizing off with
  | nil => cases h; rfl
  | cons c cs ih =>
    unfold takeString at h
    split at h
    · cases h
    · split at h
      · rename_i hs
        cases h
        rw [ih hs, List.length_cons, Nat.add_assoc, Nat.add_comm 1]
      · cases h

theorem takeString_encoded {str : List Byte} (h : 0#8 ∉ str) (off : Nat) (rest : List Byte) :
    takeString off (str ++ 0#8 :: rest) = .ok (str, rest) := by
  induction str generalizing off with
  | nil => rfl
  | cons c cs ih =>
    simp only [List.mem_cons, not_or] at h
    simp [takeString, show ¬c = 0#8 from Ne.symm h.1, ih h.2]

theorem takeString_unterminated {str : List Byte} (h : 0#8 ∉ str) (off : Nat) :
    takeString off str = .error (.short (off + str.length) 1) := by
  induction str generalizing off with
  | nil => rfl
  | cons c cs ih =>
    simp only [List.mem_cons, not_or] at h
    simp [takeString, show ¬c = 0#8 from Ne.symm h.1, ih h.2, Nat.add_assoc, Nat.add_comm 1]

end Sys2Proof
end

