-- ==== Sys2Proof/Laws/State.lean ====
section
/-! SUPPORT. One lemma per field per update of the state, so that no later proof unfolds a record update. -/

namespace Sys2Proof.Machine

variable (s : State)

@[simp] theorem State.setReg_x (r : Fin Config.numRegs) (v : Word) : (s.setReg r v).x = s.x.set r.val v := rfl
@[simp] theorem State.setReg_pc (r : Fin Config.numRegs) (v : Word) : (s.setReg r v).pc = s.pc := rfl
@[simp] theorem State.setReg_flag (r : Fin Config.numRegs) (v : Word) : (s.setReg r v).flag = s.flag := rfl
@[simp] theorem State.setReg_mode (r : Fin Config.numRegs) (v : Word) : (s.setReg r v).mode = s.mode := rfl
@[simp] theorem State.setReg_fault (r : Fin Config.numRegs) (v : Word) : (s.setReg r v).fault = s.fault := rfl
@[simp] theorem State.setReg_npix (r : Fin Config.numRegs) (v : Word) : (s.setReg r v).npix = s.npix := rfl
@[simp] theorem State.setReg_stage (r : Fin Config.numRegs) (v : Word) : (s.setReg r v).stage = s.stage := rfl
@[simp] theorem State.setReg_stageLen (r : Fin Config.numRegs) (v : Word) : (s.setReg r v).stageLen = s.stageLen := rfl
@[simp] theorem State.setReg_mem (r : Fin Config.numRegs) (v : Word) : (s.setReg r v).mem = s.mem := rfl
@[simp] theorem State.setReg_out (r : Fin Config.numRegs) (v : Word) : (s.setReg r v).out = s.out := rfl
@[simp] theorem State.setReg_progMem (r : Fin Config.numRegs) (v : Word) : (s.setReg r v).progMem = s.progMem := rfl
@[simp] theorem State.setReg_arb (r : Fin Config.numRegs) (v : Word) : (s.setReg r v).arb = s.arb := rfl
@[simp] theorem State.setReg_schedule (r : Fin Config.numRegs) (v : Word) : (s.setReg r v).schedule = s.schedule := rfl
@[simp] theorem State.setReg_fetching (r : Fin Config.numRegs) (v : Word) : (s.setReg r v).fetching = s.fetching := rfl
@[simp] theorem State.setReg_pending (r : Fin Config.numRegs) (v : Word) : (s.setReg r v).pending = s.pending := rfl

@[simp] theorem State.setPc_x (a : Nat) : (s.setPc a).x = s.x := rfl
@[simp] theorem State.setPc_pc (a : Nat) : (s.setPc a).pc = .addr a := rfl
@[simp] theorem State.setPc_flag (a : Nat) : (s.setPc a).flag = s.flag := rfl
@[simp] theorem State.setPc_mode (a : Nat) : (s.setPc a).mode = s.mode := rfl
@[simp] theorem State.setPc_fault (a : Nat) : (s.setPc a).fault = s.fault := rfl
@[simp] theorem State.setPc_npix (a : Nat) : (s.setPc a).npix = s.npix := rfl
@[simp] theorem State.setPc_stage (a : Nat) : (s.setPc a).stage = s.stage := rfl
@[simp] theorem State.setPc_stageLen (a : Nat) : (s.setPc a).stageLen = s.stageLen := rfl
@[simp] theorem State.setPc_mem (a : Nat) : (s.setPc a).mem = s.mem := rfl
@[simp] theorem State.setPc_out (a : Nat) : (s.setPc a).out = s.out := rfl
@[simp] theorem State.setPc_progMem (a : Nat) : (s.setPc a).progMem = s.progMem := rfl
@[simp] theorem State.setPc_arb (a : Nat) : (s.setPc a).arb = s.arb := rfl
@[simp] theorem State.setPc_schedule (a : Nat) : (s.setPc a).schedule = s.schedule := rfl
@[simp] theorem State.setPc_fetching (a : Nat) : (s.setPc a).fetching = s.fetching := rfl
@[simp] theorem State.setPc_pending (a : Nat) : (s.setPc a).pending = s.pending := rfl

@[simp] theorem State.setFlag_x (v : Bool) : (s.setFlag v).x = s.x := rfl
@[simp] theorem State.setFlag_pc (v : Bool) : (s.setFlag v).pc = s.pc := rfl
@[simp] theorem State.setFlag_flag (v : Bool) : (s.setFlag v).flag = v := rfl
@[simp] theorem State.setFlag_mode (v : Bool) : (s.setFlag v).mode = s.mode := rfl
@[simp] theorem State.setFlag_fault (v : Bool) : (s.setFlag v).fault = s.fault := rfl
@[simp] theorem State.setFlag_npix (v : Bool) : (s.setFlag v).npix = s.npix := rfl
@[simp] theorem State.setFlag_stage (v : Bool) : (s.setFlag v).stage = s.stage := rfl
@[simp] theorem State.setFlag_stageLen (v : Bool) : (s.setFlag v).stageLen = s.stageLen := rfl
@[simp] theorem State.setFlag_mem (v : Bool) : (s.setFlag v).mem = s.mem := rfl
@[simp] theorem State.setFlag_out (v : Bool) : (s.setFlag v).out = s.out := rfl
@[simp] theorem State.setFlag_progMem (v : Bool) : (s.setFlag v).progMem = s.progMem := rfl
@[simp] theorem State.setFlag_arb (v : Bool) : (s.setFlag v).arb = s.arb := rfl
@[simp] theorem State.setFlag_schedule (v : Bool) : (s.setFlag v).schedule = s.schedule := rfl
@[simp] theorem State.setFlag_fetching (v : Bool) : (s.setFlag v).fetching = s.fetching := rfl
@[simp] theorem State.setFlag_pending (v : Bool) : (s.setFlag v).pending = s.pending := rfl

@[simp] theorem State.setMode_x (m : Mode) : (s.setMode m).x = s.x := rfl
@[simp] theorem State.setMode_pc (m : Mode) : (s.setMode m).pc = s.pc := rfl
@[simp] theorem State.setMode_flag (m : Mode) : (s.setMode m).flag = s.flag := rfl
@[simp] theorem State.setMode_mode (m : Mode) : (s.setMode m).mode = m := rfl
@[simp] theorem State.setMode_fault (m : Mode) : (s.setMode m).fault = s.fault := rfl
@[simp] theorem State.setMode_npix (m : Mode) : (s.setMode m).npix = s.npix := rfl
@[simp] theorem State.setMode_stage (m : Mode) : (s.setMode m).stage = s.stage := rfl
@[simp] theorem State.setMode_stageLen (m : Mode) : (s.setMode m).stageLen = s.stageLen := rfl
@[simp] theorem State.setMode_mem (m : Mode) : (s.setMode m).mem = s.mem := rfl
@[simp] theorem State.setMode_out (m : Mode) : (s.setMode m).out = s.out := rfl
@[simp] theorem State.setMode_progMem (m : Mode) : (s.setMode m).progMem = s.progMem := rfl
@[simp] theorem State.setMode_arb (m : Mode) : (s.setMode m).arb = s.arb := rfl
@[simp] theorem State.setMode_schedule (m : Mode) : (s.setMode m).schedule = s.schedule := rfl
@[simp] theorem State.setMode_fetching (m : Mode) : (s.setMode m).fetching = s.fetching := rfl
@[simp] theorem State.setMode_pending (m : Mode) : (s.setMode m).pending = s.pending := rfl

@[simp] theorem State.setNpix_x (n : Byte) : (s.setNpix n).x = s.x := rfl
@[simp] theorem State.setNpix_pc (n : Byte) : (s.setNpix n).pc = s.pc := rfl
@[simp] theorem State.setNpix_flag (n : Byte) : (s.setNpix n).flag = s.flag := rfl
@[simp] theorem State.setNpix_mode (n : Byte) : (s.setNpix n).mode = s.mode := rfl
@[simp] theorem State.setNpix_fault (n : Byte) : (s.setNpix n).fault = s.fault := rfl
@[simp] theorem State.setNpix_npix (n : Byte) : (s.setNpix n).npix = n := rfl
@[simp] theorem State.setNpix_stage (n : Byte) : (s.setNpix n).stage = s.stage := rfl
@[simp] theorem State.setNpix_stageLen (n : Byte) : (s.setNpix n).stageLen = s.stageLen := rfl
@[simp] theorem State.setNpix_mem (n : Byte) : (s.setNpix n).mem = s.mem := rfl
@[simp] theorem State.setNpix_out (n : Byte) : (s.setNpix n).out = s.out := rfl
@[simp] theorem State.setNpix_progMem (n : Byte) : (s.setNpix n).progMem = s.progMem := rfl
@[simp] theorem State.setNpix_arb (n : Byte) : (s.setNpix n).arb = s.arb := rfl
@[simp] theorem State.setNpix_schedule (n : Byte) : (s.setNpix n).schedule = s.schedule := rfl
@[simp] theorem State.setNpix_fetching (n : Byte) : (s.setNpix n).fetching = s.fetching := rfl
@[simp] theorem State.setNpix_pending (n : Byte) : (s.setNpix n).pending = s.pending := rfl

@[simp] theorem State.emit_x (es : List OutEvent) : (s.emit es).x = s.x := rfl
@[simp] theorem State.emit_pc (es : List OutEvent) : (s.emit es).pc = s.pc := rfl
@[simp] theorem State.emit_flag (es : List OutEvent) : (s.emit es).flag = s.flag := rfl
@[simp] theorem State.emit_mode (es : List OutEvent) : (s.emit es).mode = s.mode := rfl
@[simp] theorem State.emit_fault (es : List OutEvent) : (s.emit es).fault = s.fault := rfl
@[simp] theorem State.emit_npix (es : List OutEvent) : (s.emit es).npix = s.npix := rfl
@[simp] theorem State.emit_stage (es : List OutEvent) : (s.emit es).stage = s.stage := rfl
@[simp] theorem State.emit_stageLen (es : List OutEvent) : (s.emit es).stageLen = s.stageLen := rfl
@[simp] theorem State.emit_mem (es : List OutEvent) : (s.emit es).mem = s.mem := rfl
@[simp] theorem State.emit_out (es : List OutEvent) : (s.emit es).out = s.out ++ es := rfl
@[simp] theorem State.emit_progMem (es : List OutEvent) : (s.emit es).progMem = s.progMem := rfl
@[simp] theorem State.emit_arb (es : List OutEvent) : (s.emit es).arb = s.arb := rfl
@[simp] theorem State.emit_schedule (es : List OutEvent) : (s.emit es).schedule = s.schedule := rfl
@[simp] theorem State.emit_fetching (es : List OutEvent) : (s.emit es).fetching = s.fetching := rfl
@[simp] theorem State.emit_pending (es : List OutEvent) : (s.emit es).pending = s.pending := rfl

@[simp] theorem State.setSchedule_x (later : List Turn) : (s.setSchedule later).x = s.x := rfl
@[simp] theorem State.setSchedule_pc (later : List Turn) : (s.setSchedule later).pc = s.pc := rfl
@[simp] theorem State.setSchedule_flag (later : List Turn) : (s.setSchedule later).flag = s.flag := rfl
@[simp] theorem State.setSchedule_mode (later : List Turn) : (s.setSchedule later).mode = s.mode := rfl
@[simp] theorem State.setSchedule_fault (later : List Turn) : (s.setSchedule later).fault = s.fault := rfl
@[simp] theorem State.setSchedule_npix (later : List Turn) : (s.setSchedule later).npix = s.npix := rfl
@[simp] theorem State.setSchedule_stage (later : List Turn) : (s.setSchedule later).stage = s.stage := rfl
@[simp] theorem State.setSchedule_stageLen (later : List Turn) : (s.setSchedule later).stageLen = s.stageLen := rfl
@[simp] theorem State.setSchedule_mem (later : List Turn) : (s.setSchedule later).mem = s.mem := rfl
@[simp] theorem State.setSchedule_out (later : List Turn) : (s.setSchedule later).out = s.out := rfl
@[simp] theorem State.setSchedule_progMem (later : List Turn) : (s.setSchedule later).progMem = s.progMem := rfl
@[simp] theorem State.setSchedule_arb (later : List Turn) : (s.setSchedule later).arb = s.arb := rfl
@[simp] theorem State.setSchedule_schedule (later : List Turn) : (s.setSchedule later).schedule = later := rfl
@[simp] theorem State.setSchedule_fetching (later : List Turn) : (s.setSchedule later).fetching = s.fetching := rfl
@[simp] theorem State.setSchedule_pending (later : List Turn) : (s.setSchedule later).pending = s.pending := rfl

@[simp] theorem State.setPending_x (cells : List Host.Cell) : (s.setPending cells).x = s.x := rfl
@[simp] theorem State.setPending_pc (cells : List Host.Cell) : (s.setPending cells).pc = s.pc := rfl
@[simp] theorem State.setPending_flag (cells : List Host.Cell) : (s.setPending cells).flag = s.flag := rfl
@[simp] theorem State.setPending_mode (cells : List Host.Cell) : (s.setPending cells).mode = s.mode := rfl
@[simp] theorem State.setPending_fault (cells : List Host.Cell) : (s.setPending cells).fault = s.fault := rfl
@[simp] theorem State.setPending_npix (cells : List Host.Cell) : (s.setPending cells).npix = s.npix := rfl
@[simp] theorem State.setPending_stage (cells : List Host.Cell) : (s.setPending cells).stage = s.stage := rfl
@[simp] theorem State.setPending_stageLen (cells : List Host.Cell) : (s.setPending cells).stageLen = s.stageLen := rfl
@[simp] theorem State.setPending_mem (cells : List Host.Cell) : (s.setPending cells).mem = s.mem := rfl
@[simp] theorem State.setPending_out (cells : List Host.Cell) : (s.setPending cells).out = s.out := rfl
@[simp] theorem State.setPending_progMem (cells : List Host.Cell) : (s.setPending cells).progMem = s.progMem := rfl
@[simp] theorem State.setPending_arb (cells : List Host.Cell) : (s.setPending cells).arb = s.arb := rfl
@[simp] theorem State.setPending_schedule (cells : List Host.Cell) : (s.setPending cells).schedule = s.schedule := rfl
@[simp] theorem State.setPending_fetching (cells : List Host.Cell) : (s.setPending cells).fetching = s.fetching := rfl
@[simp] theorem State.setPending_pending (cells : List Host.Cell) : (s.setPending cells).pending = cells := rfl

@[simp] theorem State.writeByte_x (a : Nat) (b : Byte) : (s.writeByte a b).x = s.x := rfl
@[simp] theorem State.writeByte_pc (a : Nat) (b : Byte) : (s.writeByte a b).pc = s.pc := rfl
@[simp] theorem State.writeByte_flag (a : Nat) (b : Byte) : (s.writeByte a b).flag = s.flag := rfl
@[simp] theorem State.writeByte_mode (a : Nat) (b : Byte) : (s.writeByte a b).mode = s.mode := rfl
@[simp] theorem State.writeByte_fault (a : Nat) (b : Byte) : (s.writeByte a b).fault = s.fault := rfl
@[simp] theorem State.writeByte_npix (a : Nat) (b : Byte) : (s.writeByte a b).npix = s.npix := rfl
@[simp] theorem State.writeByte_stage (a : Nat) (b : Byte) : (s.writeByte a b).stage = s.stage := rfl
@[simp] theorem State.writeByte_stageLen (a : Nat) (b : Byte) : (s.writeByte a b).stageLen = s.stageLen := rfl
@[simp] theorem State.writeByte_mem (a : Nat) (b : Byte) : (s.writeByte a b).mem = s.mem.write a b := rfl
@[simp] theorem State.writeByte_out (a : Nat) (b : Byte) : (s.writeByte a b).out = s.out := rfl
@[simp] theorem State.writeByte_progMem (a : Nat) (b : Byte) : (s.writeByte a b).progMem = s.progMem := rfl
@[simp] theorem State.writeByte_arb (a : Nat) (b : Byte) : (s.writeByte a b).arb = s.arb := rfl
@[simp] theorem State.writeByte_schedule (a : Nat) (b : Byte) : (s.writeByte a b).schedule = s.schedule := rfl
@[simp] theorem State.writeByte_fetching (a : Nat) (b : Byte) : (s.writeByte a b).fetching = s.fetching := rfl
@[simp] theorem State.writeByte_pending (a : Nat) (b : Byte) : (s.writeByte a b).pending = s.pending := rfl

@[simp] theorem State.writeBytes_x (a : Nat) (bytes : List Byte) : (s.writeBytes a bytes).x = s.x := rfl
@[simp] theorem State.writeBytes_pc (a : Nat) (bytes : List Byte) : (s.writeBytes a bytes).pc = s.pc := rfl
@[simp] theorem State.writeBytes_flag (a : Nat) (bytes : List Byte) : (s.writeBytes a bytes).flag = s.flag := rfl
@[simp] theorem State.writeBytes_mode (a : Nat) (bytes : List Byte) : (s.writeBytes a bytes).mode = s.mode := rfl
@[simp] theorem State.writeBytes_fault (a : Nat) (bytes : List Byte) : (s.writeBytes a bytes).fault = s.fault := rfl
@[simp] theorem State.writeBytes_npix (a : Nat) (bytes : List Byte) : (s.writeBytes a bytes).npix = s.npix := rfl
@[simp] theorem State.writeBytes_stage (a : Nat) (bytes : List Byte) : (s.writeBytes a bytes).stage = s.stage := rfl
@[simp] theorem State.writeBytes_stageLen (a : Nat) (bytes : List Byte) : (s.writeBytes a bytes).stageLen = s.stageLen := rfl
@[simp] theorem State.writeBytes_mem (a : Nat) (bytes : List Byte) : (s.writeBytes a bytes).mem = s.mem.writeBytes a bytes := rfl
@[simp] theorem State.writeBytes_out (a : Nat) (bytes : List Byte) : (s.writeBytes a bytes).out = s.out := rfl
@[simp] theorem State.writeBytes_progMem (a : Nat) (bytes : List Byte) : (s.writeBytes a bytes).progMem = s.progMem := rfl
@[simp] theorem State.writeBytes_arb (a : Nat) (bytes : List Byte) : (s.writeBytes a bytes).arb = s.arb := rfl
@[simp] theorem State.writeBytes_schedule (a : Nat) (bytes : List Byte) : (s.writeBytes a bytes).schedule = s.schedule := rfl
@[simp] theorem State.writeBytes_fetching (a : Nat) (bytes : List Byte) : (s.writeBytes a bytes).fetching = s.fetching := rfl
@[simp] theorem State.writeBytes_pending (a : Nat) (bytes : List Byte) : (s.writeBytes a bytes).pending = s.pending := rfl

@[simp] theorem State.clearStage_x : (s.clearStage).x = s.x := rfl
@[simp] theorem State.clearStage_pc : (s.clearStage).pc = s.pc := rfl
@[simp] theorem State.clearStage_flag : (s.clearStage).flag = s.flag := rfl
@[simp] theorem State.clearStage_mode : (s.clearStage).mode = s.mode := rfl
@[simp] theorem State.clearStage_fault : (s.clearStage).fault = s.fault := rfl
@[simp] theorem State.clearStage_npix : (s.clearStage).npix = s.npix := rfl
@[simp] theorem State.clearStage_stage : (s.clearStage).stage = clearedStage := rfl
@[simp] theorem State.clearStage_stageLen : (s.clearStage).stageLen = 0 := rfl
@[simp] theorem State.clearStage_mem : (s.clearStage).mem = s.mem := rfl
@[simp] theorem State.clearStage_out : (s.clearStage).out = s.out := rfl
@[simp] theorem State.clearStage_progMem : (s.clearStage).progMem = s.progMem := rfl
@[simp] theorem State.clearStage_arb : (s.clearStage).arb = s.arb := rfl
@[simp] theorem State.clearStage_schedule : (s.clearStage).schedule = s.schedule := rfl
@[simp] theorem State.clearStage_fetching : (s.clearStage).fetching = s.fetching := rfl
@[simp] theorem State.clearStage_pending : (s.clearStage).pending = s.pending := rfl

@[simp] theorem State.raise_x (f : FaultRecord) : (s.raise f).x = s.x := rfl
@[simp] theorem State.raise_pc (f : FaultRecord) : (s.raise f).pc = s.pc := rfl
@[simp] theorem State.raise_flag (f : FaultRecord) : (s.raise f).flag = s.flag := rfl
@[simp] theorem State.raise_mode (f : FaultRecord) : (s.raise f).mode = .faulted := rfl
@[simp] theorem State.raise_fault (f : FaultRecord) : (s.raise f).fault = some f := rfl
@[simp] theorem State.raise_npix (f : FaultRecord) : (s.raise f).npix = s.npix := rfl
@[simp] theorem State.raise_stage (f : FaultRecord) : (s.raise f).stage = s.stage := rfl
@[simp] theorem State.raise_stageLen (f : FaultRecord) : (s.raise f).stageLen = s.stageLen := rfl
@[simp] theorem State.raise_mem (f : FaultRecord) : (s.raise f).mem = s.mem := rfl
@[simp] theorem State.raise_out (f : FaultRecord) : (s.raise f).out = s.out := rfl
@[simp] theorem State.raise_progMem (f : FaultRecord) : (s.raise f).progMem = s.progMem := rfl
@[simp] theorem State.raise_arb (f : FaultRecord) : (s.raise f).arb = s.arb := rfl
@[simp] theorem State.raise_schedule (f : FaultRecord) : (s.raise f).schedule = s.schedule := rfl
@[simp] theorem State.raise_fetching (f : FaultRecord) : (s.raise f).fetching = none := rfl
@[simp] theorem State.raise_pending (f : FaultRecord) : (s.raise f).pending = s.pending := rfl

@[simp] theorem State.raiseAt_x (a : Nat) (f : FaultRecord) : (s.raiseAt a f).x = s.x := rfl
@[simp] theorem State.raiseAt_pc (a : Nat) (f : FaultRecord) : (s.raiseAt a f).pc = .addr a := rfl
@[simp] theorem State.raiseAt_flag (a : Nat) (f : FaultRecord) : (s.raiseAt a f).flag = s.flag := rfl
@[simp] theorem State.raiseAt_mode (a : Nat) (f : FaultRecord) : (s.raiseAt a f).mode = .faulted := rfl
@[simp] theorem State.raiseAt_fault (a : Nat) (f : FaultRecord) : (s.raiseAt a f).fault = some f := rfl
@[simp] theorem State.raiseAt_npix (a : Nat) (f : FaultRecord) : (s.raiseAt a f).npix = s.npix := rfl
@[simp] theorem State.raiseAt_stage (a : Nat) (f : FaultRecord) : (s.raiseAt a f).stage = s.stage := rfl
@[simp] theorem State.raiseAt_stageLen (a : Nat) (f : FaultRecord) : (s.raiseAt a f).stageLen = s.stageLen := rfl
@[simp] theorem State.raiseAt_mem (a : Nat) (f : FaultRecord) : (s.raiseAt a f).mem = s.mem := rfl
@[simp] theorem State.raiseAt_out (a : Nat) (f : FaultRecord) : (s.raiseAt a f).out = s.out := rfl
@[simp] theorem State.raiseAt_progMem (a : Nat) (f : FaultRecord) : (s.raiseAt a f).progMem = s.progMem := rfl
@[simp] theorem State.raiseAt_arb (a : Nat) (f : FaultRecord) : (s.raiseAt a f).arb = s.arb := rfl
@[simp] theorem State.raiseAt_schedule (a : Nat) (f : FaultRecord) : (s.raiseAt a f).schedule = s.schedule := rfl
@[simp] theorem State.raiseAt_fetching (a : Nat) (f : FaultRecord) : (s.raiseAt a f).fetching = none := rfl
@[simp] theorem State.raiseAt_pending (a : Nat) (f : FaultRecord) : (s.raiseAt a f).pending = s.pending := rfl

@[simp] theorem State.raiseLoader_x (f : FaultRecord) : (s.raiseLoader f).x = s.x := rfl
@[simp] theorem State.raiseLoader_pc (f : FaultRecord) : (s.raiseLoader f).pc = s.pc := rfl
@[simp] theorem State.raiseLoader_flag (f : FaultRecord) : (s.raiseLoader f).flag = s.flag := rfl
@[simp] theorem State.raiseLoader_mode (f : FaultRecord) : (s.raiseLoader f).mode = .faulted := rfl
@[simp] theorem State.raiseLoader_fault (f : FaultRecord) : (s.raiseLoader f).fault = some f := rfl
@[simp] theorem State.raiseLoader_npix (f : FaultRecord) : (s.raiseLoader f).npix = s.npix := rfl
@[simp] theorem State.raiseLoader_stage (f : FaultRecord) : (s.raiseLoader f).stage = clearedStage := rfl
@[simp] theorem State.raiseLoader_stageLen (f : FaultRecord) : (s.raiseLoader f).stageLen = 0 := rfl
@[simp] theorem State.raiseLoader_mem (f : FaultRecord) : (s.raiseLoader f).mem = s.mem := rfl
@[simp] theorem State.raiseLoader_out (f : FaultRecord) : (s.raiseLoader f).out = s.out := rfl
@[simp] theorem State.raiseLoader_progMem (f : FaultRecord) : (s.raiseLoader f).progMem = s.progMem := rfl
@[simp] theorem State.raiseLoader_arb (f : FaultRecord) : (s.raiseLoader f).arb = s.arb := rfl
@[simp] theorem State.raiseLoader_schedule (f : FaultRecord) : (s.raiseLoader f).schedule = s.schedule := rfl
@[simp] theorem State.raiseLoader_fetching (f : FaultRecord) : (s.raiseLoader f).fetching = none := rfl
@[simp] theorem State.raiseLoader_pending (f : FaultRecord) : (s.raiseLoader f).pending = s.pending := rfl

@[simp] theorem State.stageChunk_x (bytes : List Byte) : (s.stageChunk bytes).x = s.x := rfl
@[simp] theorem State.stageChunk_pc (bytes : List Byte) : (s.stageChunk bytes).pc = s.pc := rfl
@[simp] theorem State.stageChunk_flag (bytes : List Byte) : (s.stageChunk bytes).flag = s.flag := rfl
@[simp] theorem State.stageChunk_mode (bytes : List Byte) : (s.stageChunk bytes).mode = s.mode := rfl
@[simp] theorem State.stageChunk_fault (bytes : List Byte) : (s.stageChunk bytes).fault = s.fault := rfl
@[simp] theorem State.stageChunk_npix (bytes : List Byte) : (s.stageChunk bytes).npix = s.npix := rfl
@[simp] theorem State.stageChunk_stage (bytes : List Byte) : (s.stageChunk bytes).stage = bytes ++ s.stage.drop bytes.length := rfl
@[simp] theorem State.stageChunk_stageLen (bytes : List Byte) : (s.stageChunk bytes).stageLen = bytes.length := rfl
@[simp] theorem State.stageChunk_mem (bytes : List Byte) : (s.stageChunk bytes).mem = s.mem := rfl
@[simp] theorem State.stageChunk_out (bytes : List Byte) : (s.stageChunk bytes).out = s.out := rfl
@[simp] theorem State.stageChunk_progMem (bytes : List Byte) : (s.stageChunk bytes).progMem = s.progMem := rfl
@[simp] theorem State.stageChunk_arb (bytes : List Byte) : (s.stageChunk bytes).arb = s.arb := rfl
@[simp] theorem State.stageChunk_schedule (bytes : List Byte) : (s.stageChunk bytes).schedule = s.schedule := rfl
@[simp] theorem State.stageChunk_fetching (bytes : List Byte) : (s.stageChunk bytes).fetching = s.fetching := rfl
@[simp] theorem State.stageChunk_pending (bytes : List Byte) : (s.stageChunk bytes).pending = s.pending := rfl

@[simp] theorem State.resetEvent_x : (s.resetEvent).x = Vector.replicate Config.numRegs 0 := rfl
@[simp] theorem State.resetEvent_pc : (s.resetEvent).pc = .unset := rfl
@[simp] theorem State.resetEvent_flag : (s.resetEvent).flag = Config.flagReset := rfl
@[simp] theorem State.resetEvent_mode : (s.resetEvent).mode = .unstarted := rfl
@[simp] theorem State.resetEvent_fault : (s.resetEvent).fault = none := rfl
@[simp] theorem State.resetEvent_npix : (s.resetEvent).npix = Config.npixReset := rfl
@[simp] theorem State.resetEvent_stage : (s.resetEvent).stage = clearedStage := rfl
@[simp] theorem State.resetEvent_stageLen : (s.resetEvent).stageLen = 0 := rfl
@[simp] theorem State.resetEvent_mem : (s.resetEvent).mem = [] := rfl
@[simp] theorem State.resetEvent_out : (s.resetEvent).out = [] := rfl
@[simp] theorem State.resetEvent_progMem : (s.resetEvent).progMem = s.progMem := rfl
@[simp] theorem State.resetEvent_arb : (s.resetEvent).arb = s.arb := rfl
@[simp] theorem State.resetEvent_schedule : (s.resetEvent).schedule = s.schedule := rfl
@[simp] theorem State.resetEvent_fetching : (s.resetEvent).fetching = none := rfl
@[simp] theorem State.resetEvent_pending : (s.resetEvent).pending = [] := rfl

end Sys2Proof.Machine
end

