-- ==== Sys2Proof/Laws/Exec.lean ====
section
/-! SUPPORT. What the operations behind the meanings can do, once each. -/

namespace Sys2Proof.Machine

@[simp] theorem State.value_lit (s : State) (v : Word) : s.value (.lit v) = v := rfl

@[simp] theorem State.value_reg (s : State) (r : Fin Config.numRegs) : s.value (.reg r) = s.x[r.val] := rfl

/-- At a numeric `pc` an instruction has its effect. -/
theorem State.atPc_addr {s : State} {pc0 : Nat} (h : s.pc = .addr pc0) (body : Nat → State) :
    s.atPc body = .next (body pc0) := by
  simp [State.atPc, h]

/-- Everything `atPc` can answer with a next state. -/
theorem State.atPc_eq_next {s t : State} {body : Nat → State} (h : s.atPc body = .next t) :
    ∃ pc0, s.pc = .addr pc0 ∧ t = body pc0 := by
  unfold State.atPc at h
  split at h
  · cases h
  · rename_i pc0 hpc
    cases h
    exact ⟨pc0, hpc, rfl⟩

/-- Everything SET, ADD and SUB can do: one register written, or `BadRegIndex`. -/
theorem State.updateReg_eq_next {s t : State} {idx : Byte} {f : Word → Word} (h : s.updateReg idx f = .next t) :
    ∃ pc0, s.pc = .addr pc0 ∧
      ((∃ hi : idx.toNat < Config.numRegs,
          t = (s.setReg ⟨idx.toNat, hi⟩ (f s.x[idx.toNat])).setPc (pc0 + 4)) ∨
        (Config.numRegs ≤ idx.toNat ∧ t = s.raiseAt (pc0 + 4) (.badRegIndex pc0 idx))) := by
  obtain ⟨pc0, hpc, ht⟩ := State.atPc_eq_next h
  refine ⟨pc0, hpc, ?_⟩
  split at ht
  · rename_i hi
    exact .inl ⟨hi, ht⟩
  · exact .inr ⟨by omega, ht⟩

theorem State.updateReg_of_lt {s : State} {pc0 : Nat} (hpc : s.pc = .addr pc0) {idx : Byte}
    (hi : idx.toNat < Config.numRegs) (f : Word → Word) :
    s.updateReg idx f = .next ((s.setReg ⟨idx.toNat, hi⟩ (f s.x[idx.toNat])).setPc (pc0 + 4)) := by
  rw [State.updateReg, State.atPc_addr hpc, dif_pos hi]

theorem State.updateReg_of_ge {s : State} {pc0 : Nat} (hpc : s.pc = .addr pc0) {idx : Byte}
    (hi : Config.numRegs ≤ idx.toNat) (f : Word → Word) :
    s.updateReg idx f = .next (s.raiseAt (pc0 + 4) (.badRegIndex pc0 idx)) := by
  rw [State.updateReg, State.atPc_addr hpc, dif_neg (by omega)]

/-- The narrowing of rule R55 is the remainder by 256. -/
theorem lowByte_eq (v : Word) : lowByte v = BitVec.ofNat 8 (v.toNat % 256) := by
  apply BitVec.eq_of_toNat_eq
  simp [lowByte]

/-- The clamp of rule R94 gives a radius the display admits. -/
theorem clampRadius_range (v : Word) : 1 ≤ clampRadius v ∧ clampRadius v ≤ 4 := by
  unfold clampRadius
  omega

@[simp] theorem fillEvents_length (n r g b : Byte) : (fillEvents n r g b).length = n.toNat := by
  simp [fillEvents]

theorem fillEvents_getElem (n r g b : Byte) (k : Nat) (h : k < (fillEvents n r g b).length) :
    (fillEvents n r g b)[k] = .displaySetPixel (BitVec.ofNat 8 k) r g b := by
  simp [fillEvents]

/-! ### Each instruction as the shared operation it is one line over -/

section
variable (s : State)

theorem exec_exit : exec .exit s = s.atPc fun pc0 => (s.setMode .halted).setPc (pc0 + 1) := rfl

theorem exec_print (str : List Byte) : exec (.print str) s =
    s.atPc fun pc0 => (s.emit [.print str s.x[0] s.x[1] s.x[2] s.x[3]]).setPc (pc0 + (2 + str.length)) := rfl

theorem exec_set (idx : Byte) (a : Operand) : exec (.set idx a) s = s.updateReg idx fun _ => s.value a := rfl

theorem exec_add (idx : Byte) (a : Operand) : exec (.add idx a) s = s.updateReg idx fun old => old + s.value a := rfl

theorem exec_sub (idx : Byte) (a : Operand) : exec (.sub idx a) s = s.updateReg idx fun old => old - s.value a := rfl

theorem exec_cmp (op : CmpOp) (a b : Operand) : exec (.cmp op a b) s =
    s.atPc fun pc0 => (s.setFlag (cmpFlag op (s.value a) (s.value b) s.flag)).setPc (pc0 + 6) := rfl

theorem exec_cmpz (a : Operand) : exec (.cmpz a) s =
    s.atPc fun pc0 => (s.setFlag (zeroFlag (s.value a))).setPc (pc0 + 3) := rfl

theorem exec_cmpnz (a : Operand) : exec (.cmpnz a) s =
    s.atPc fun pc0 => (s.setFlag (nonzeroFlag (s.value a))).setPc (pc0 + 3) := rfl

theorem exec_sleep (a : Operand) : exec (.sleep a) s =
    s.atPc fun pc0 => ((s.emit [.sleep (s.value a)]).setMode .waitSleep).setPc (pc0 + 3) := rfl

theorem exec_jump (a : Operand) : exec (.jump a) s = s.atPc fun _ => s.setPc (s.value a).toNat := rfl

theorem exec_jumpCond (a : Operand) : exec (.jumpCond a) s =
    s.atPc fun pc0 => s.setPc (if s.flag then (s.value a).toNat else pc0 + 3) := rfl

theorem exec_ledClear : exec .ledClear s = s.atPc fun pc0 => (s.emit [.displayClear]).setPc (pc0 + 1) := rfl

theorem exec_ledSetN (a : Operand) : exec (.ledSetN a) s = s.atPc fun pc0 =>
    ((s.emit [.displaySetPixelCount (lowByte (s.value a))]).setNpix (lowByte (s.value a))).setPc (pc0 + 3) := rfl

theorem exec_ledSetPixel (i r g b : Operand) : exec (.ledSetPixel i r g b) s = s.atPc fun pc0 =>
    (s.emit [.displaySetPixel (lowByte (s.value i)) (lowByte (s.value r)) (lowByte (s.value g))
      (lowByte (s.value b))]).setPc (pc0 + 9) := rfl

theorem exec_ledSync : exec .ledSync s =
    s.atPc fun pc0 => ((s.emit [.displaySync true]).setMode .waitSync).setPc (pc0 + 1) := rfl

theorem exec_ledBlur (a : Operand) : exec (.ledBlur a) s =
    s.atPc fun pc0 => (s.emit [.displayBlur (clampRadius (s.value a))]).setPc (pc0 + 3) := rfl

theorem exec_ledFill (r g b : Operand) : exec (.ledFill r g b) s = s.atPc fun pc0 =>
    (s.emit (fillEvents s.npix (lowByte (s.value r)) (lowByte (s.value g)) (lowByte (s.value b)))).setPc (pc0 + 7) :=
  rfl

theorem exec_unknown (opc : Byte) : exec (.unknown opc) s = s.atPc fun pc0 => s.setPc (pc0 + 1) := rfl

end

/-- With `pc = Unset` no instruction has a next state. -/
theorem exec_pc_numeric {i : Instr} {s t : State} (h : exec i s = .next t) : ∃ pc0, s.pc = .addr pc0 := by
  cases hs : s.pc with
  | addr a => exact ⟨a, rfl⟩
  | unset => cases i <;> simp [exec, execExit, execPrint, execSet, execAdd, execSub, execCmp, execCmpz, execCmpnz,
      execSleep, execJump, execJumpCond, execLedClear, execLedSetN, execLedSetPixel, execLedSync, execLedBlur,
      execLedFill, execUnknown, State.updateReg, State.atPc, hs] at h

/-- At a numeric `pc` every instruction has a next state. -/
theorem exec_total (i : Instr) {s : State} {pc0 : Nat} (h : s.pc = .addr pc0) : ∃ t, exec i s = .next t := by
  cases i <;> exact ⟨_, State.atPc_addr h _⟩

end Sys2Proof.Machine
end

