-- ==== Sys2Proof/Laws/Memory.lean ====
section
/-! SUPPORT. The laws of the Program Store: read after write, the canonical form and its uniqueness, and the
instruction stream. -/

namespace Sys2Proof.Machine

/-! ### Read after write -/

theorem Memory.written_write (m : Memory) (a : Nat) (b : Byte) (a' : Nat) :
    (m.write a b).written a' = if a = a' then some b else m.written a' := by
  induction m with
  | nil => rfl
  | cons c rest ih =>
    obtain ⟨ac, bc⟩ := c
    unfold Memory.write
    split
    · rfl
    · split
      · rename_i h
        subst h
        simp only [Memory.written]
        split <;> rfl
      · rename_i hne
        simp only [Memory.written, ih]
        by_cases hac : ac = a'
        · simp [hac, show ¬a = a' from fun h => hne (h.trans hac.symm)]
        · simp [hac]

theorem Memory.read_write (m : Memory) (a : Nat) (b : Byte) (a' : Nat) :
    (m.write a b).read a' = if a = a' then b else m.read a' := by
  simp only [Memory.read, Memory.written_write]
  split <;> rfl

@[simp] theorem Memory.read_write_same (m : Memory) (a : Nat) (b : Byte) : (m.write a b).read a = b := by
  simp [Memory.read_write]

theorem Memory.read_write_of_ne (m : Memory) {a a' : Nat} (b : Byte) (h : a' ≠ a) :
    (m.write a b).read a' = m.read a' := by
  simp [Memory.read_write, Ne.symm h]

/-- `write_at` leaves every byte outside its range (rule R35). -/
theorem Memory.read_writeBytes_outside (bytes : List Byte) (m : Memory) {a a' : Nat}
    (h : a' < a ∨ a + bytes.length ≤ a') : (m.writeBytes a bytes).read a' = m.read a' := by
  induction bytes generalizing m a with
  | nil => rfl
  | cons b rest ih =>
    simp only [List.length_cons] at h
    simp only [Memory.writeBytes]
    rw [ih _ (by omega), Memory.read_write_of_ne _ _ (by omega)]

/-- `write_at` puts byte `k` of its bytes at its offset plus `k` (rule R35). -/
theorem Memory.read_writeBytes_inside (bytes : List Byte) (m : Memory) (a k : Nat) (h : k < bytes.length) :
    (m.writeBytes a bytes).read (a + k) = bytes[k] := by
  induction bytes generalizing m a k with
  | nil => simp at h
  | cons b rest ih =>
    simp only [Memory.writeBytes]
    cases k with
    | zero => rw [Memory.read_writeBytes_outside _ _ (by omega)]; simp
    | succ k =>
      have := ih (m.write a b) (a + 1) k (by simpa using h)
      rw [show a + (k + 1) = a + 1 + k by omega, this]
      rfl

/-! ### The canonical form -/

theorem Memory.wf_cons {c : Host.Cell} {m : Memory} :
    Memory.wf (c :: m) = true ↔ (∀ d ∈ m.head?, c.1 < d.1) ∧ m.wf = true := by
  cases m with
  | nil => simp [Memory.wf]
  | cons d rest => simp [Memory.wf]

theorem Memory.head_write (m : Memory) (a : Nat) (b : Byte) :
    ∀ d ∈ (m.write a b).head?, d.1 = a ∨ ∃ e ∈ m.head?, d.1 = e.1 := by
  cases m with
  | nil => simp [Memory.write]
  | cons c rest =>
    obtain ⟨ac, bc⟩ := c
    unfold Memory.write
    split
    · simp
    · split <;> simp_all

theorem Memory.wf_write {m : Memory} (h : m.wf = true) (a : Nat) (b : Byte) : (m.write a b).wf = true := by
  induction m with
  | nil => rfl
  | cons c rest ih =>
    obtain ⟨ac, bc⟩ := c
    have hc := Memory.wf_cons.1 h
    unfold Memory.write
    split
    · exact Memory.wf_cons.2 ⟨by simpa, h⟩
    · split
      · rename_i heq
        subst heq
        exact Memory.wf_cons.2 hc
      · refine Memory.wf_cons.2 ⟨fun d hd => ?_, ih hc.2⟩
        obtain hd | ⟨e, he, hd⟩ := Memory.head_write rest a b d hd
        · simp only at *
          omega
        · exact hd ▸ hc.1 e he

theorem Memory.wf_writeBytes (bytes : List Byte) {m : Memory} (h : m.wf = true) (a : Nat) :
    (m.writeBytes a bytes).wf = true := by
  induction bytes generalizing m a with
  | nil => exact h
  | cons b rest ih => exact ih (Memory.wf_write h a b) (a + 1)

theorem Memory.mem_write {m : Memory} {a : Nat} {b : Byte} {c : Host.Cell} (h : c ∈ m.write a b) :
    c.1 = a ∨ c ∈ m := by
  induction m with
  | nil => simp_all [Memory.write]
  | cons d rest ih =>
    obtain ⟨ad, bd⟩ := d
    unfold Memory.write at h
    split at h
    · obtain rfl | h := List.mem_cons.1 h
      · exact .inl rfl
      · exact .inr h
    · split at h
      · obtain rfl | h := List.mem_cons.1 h
        · exact .inl rfl
        · exact .inr (List.mem_cons_of_mem _ h)
      · obtain rfl | h := List.mem_cons.1 h
        · exact .inr List.mem_cons_self
        · exact (ih h).imp_right (List.mem_cons_of_mem _)

theorem Memory.mem_writeBytes (bytes : List Byte) {m : Memory} {a : Nat} {c : Host.Cell}
    (h : c ∈ m.writeBytes a bytes) : (a ≤ c.1 ∧ c.1 < a + bytes.length) ∨ c ∈ m := by
  induction bytes generalizing m a with
  | nil => exact .inr h
  | cons b rest ih =>
    simp only [List.length_cons]
    obtain h | h := ih h
    · exact .inl (by omega)
    · exact (Memory.mem_write h).imp_left fun h => by omega

/-- In the canonical form an address below every listed one is unlisted. -/
theorem Memory.written_eq_none {m : Memory} (h : m.wf = true) {a : Nat} (ha : ∀ d ∈ m.head?, a < d.1) :
    m.written a = none := by
  induction m with
  | nil => rfl
  | cons c rest ih =>
    have hc := Memory.wf_cons.1 h
    have hac : a < c.1 := ha c rfl
    simp only [Memory.written]
    rw [if_neg (by omega)]
    exact ih hc.2 fun d hd => hac.trans (hc.1 d hd)

/-- Equal contents are equal data: two stores in canonical form that hold the same written bytes are the same list. -/
theorem Memory.eq_of_written_eq {m m' : Memory} (h : m.wf = true) (h' : m'.wf = true)
    (hw : ∀ a, m.written a = m'.written a) : m = m' := by
  induction m generalizing m' with
  | nil =>
    cases m' with
    | nil => rfl
    | cons c rest => simpa [Memory.written] using hw c.1
  | cons c rest ih =>
    cases m' with
    | nil => simpa [Memory.written] using (hw c.1).symm
    | cons c' rest' =>
      obtain ⟨a, b⟩ := c
      obtain ⟨a', b'⟩ := c'
      have hc := Memory.wf_cons.1 h
      have hc' := Memory.wf_cons.1 h'
      have haa : a = a' := by
        have h1 := hw a
        have h2 := hw a'
        simp only [Memory.written, if_true] at h1 h2
        rcases Nat.lt_trichotomy a a' with hlt | heq | hgt
        · rw [if_neg (by omega), Memory.written_eq_none hc'.2 fun d hd => hlt.trans (hc'.1 d hd)] at h1
          cases h1
        · exact heq
        · rw [if_neg (by omega), Memory.written_eq_none hc.2 fun d hd => hgt.trans (hc.1 d hd)] at h2
          cases h2
      subst haa
      have hb : b = b' := by simpa [Memory.written] using hw a
      subst hb
      congr 1
      refine ih hc.2 hc'.2 fun x => ?_
      have hx := hw x
      simp only [Memory.written] at hx
      split at hx
      · rename_i heq
        subst heq
        rw [Memory.written_eq_none hc.2 hc.1, Memory.written_eq_none hc'.2 hc'.1]
      · exact hx

/-! ### The instruction stream -/

theorem State.readBytes_length (s : State) (a count : Nat) (h : a + count ≤ s.progMem) :
    (s.readBytes a count).length = count := by
  induction count generalizing a with
  | zero => rfl
  | succ count ih =>
    simp only [State.readBytes, State.memRead8, if_neg (show ¬a + 1 > s.progMem by omega), List.length_cons]
    rw [ih _ (by omega)]

/-- The stream depends on the store's contents and capacity only. -/
theorem State.stream_congr {s t : State} (hm : t.mem = s.mem) (hp : t.progMem = s.progMem) (a : Nat) :
    t.stream a = s.stream a := by
  have h : ∀ count a, t.readBytes a count = s.readBytes a count := by
    intro count
    induction count with
    | zero => intro a; rfl
    | succ count ih => intro a; simp only [State.readBytes, State.memRead8, ih, hm, hp]
  rw [State.stream, State.stream, h, hp]

theorem State.stream_of_ge (s : State) {a : Nat} (h : s.progMem ≤ a) : s.stream a = [] := by
  rw [State.stream, Nat.sub_eq_zero_of_le h]
  rfl

theorem State.stream_of_lt (s : State) {a : Nat} (h : a < s.progMem) :
    s.stream a = s.mem.read a :: s.stream (a + 1) := by
  obtain ⟨k, hk⟩ : ∃ k, s.progMem - a = k + 1 := ⟨s.progMem - a - 1, by omega⟩
  rw [State.stream, hk, State.readBytes, State.memRead8, if_neg (by omega), State.stream,
    show s.progMem - (a + 1) = k by omega]

/-- The stream reaches to the end of the store. -/
theorem State.stream_length (s : State) (a : Nat) : (s.stream a).length = s.progMem - a := by
  by_cases h : a ≤ s.progMem
  · exact s.readBytes_length a _ (by omega)
  · rw [s.stream_of_ge (by omega), List.length_nil]
    omega

theorem State.stream_drop (s : State) (a k : Nat) : (s.stream a).drop k = s.stream (a + k) := by
  induction k generalizing a with
  | zero => rfl
  | succ k ih =>
    by_cases h : a < s.progMem
    · rw [s.stream_of_lt h, List.drop_succ_cons, ih, Nat.add_assoc, Nat.add_comm 1]
    · rw [s.stream_of_ge (by omega), s.stream_of_ge (by omega), List.drop_nil]

/-- Bytes that lie in the store are what the stream begins with. -/
theorem State.stream_eq_append (s : State) (a : Nat) (bytes : List Byte) (hfit : a + bytes.length ≤ s.progMem)
    (hread : ∀ k (h : k < bytes.length), s.mem.read (a + k) = bytes[k]) :
    s.stream a = bytes ++ s.stream (a + bytes.length) := by
  induction bytes generalizing a with
  | nil => rfl
  | cons b rest ih =>
    simp only [List.length_cons] at hfit
    rw [s.stream_of_lt (by omega), show s.mem.read a = b from hread 0 (by simp)]
    simp only [List.cons_append, List.length_cons, List.cons.injEq, true_and]
    rw [ih (a + 1) (by omega) fun k hk => ?_, show a + 1 + rest.length = a + (rest.length + 1) by omega]
    have := hread (k + 1) (by simpa using hk)
    rw [show a + 1 + k = a + (k + 1) by omega, this]
    rfl

end Sys2Proof.Machine
end

