-- ==== Sys2Proof/Laws/PerInstr.lean ====
section
/-! SUPPORT. Statements for all instructions, one lemma per constructor. -/

/-- `encode` gives an instruction as many bytes as 30_encoding.md rule R52 says, at least one. -/
def Sys2Proof.Laws.EncodeSize.Statement (i : Sys2Proof.Instr) : Prop :=
  (Sys2Proof.encode i).length = i.size ∧ 1 ≤ i.size

namespace Sys2Proof.Laws.EncodeSize

theorem exit : Statement .exit := ⟨rfl, by decide⟩

theorem print (str : List Byte) : Statement (.print str) := by
  simp only [Statement, encode, Instr.size, List.length_cons, List.length_append, List.length_nil]
  omega

theorem set (idx : Byte) (a : Operand) : Statement (.set idx a) := ⟨rfl, by simp [Instr.size]⟩

theorem add (idx : Byte) (a : Operand) : Statement (.add idx a) := ⟨rfl, by simp [Instr.size]⟩

theorem sub (idx : Byte) (a : Operand) : Statement (.sub idx a) := ⟨rfl, by simp [Instr.size]⟩

theorem cmp (op : CmpOp) (a b : Operand) : Statement (.cmp op a b) := ⟨rfl, by simp [Instr.size]⟩

theorem cmpz (a : Operand) : Statement (.cmpz a) := ⟨rfl, by simp [Instr.size]⟩

theorem cmpnz (a : Operand) : Statement (.cmpnz a) := ⟨rfl, by simp [Instr.size]⟩

theorem sleep (a : Operand) : Statement (.sleep a) := ⟨rfl, by simp [Instr.size]⟩

theorem jump (a : Operand) : Statement (.jump a) := ⟨rfl, by simp [Instr.size]⟩

theorem jumpCond (a : Operand) : Statement (.jumpCond a) := ⟨rfl, by simp [Instr.size]⟩

theorem ledClear : Statement .ledClear := ⟨rfl, by decide⟩

theorem ledSetN (a : Operand) : Statement (.ledSetN a) := ⟨rfl, by simp [Instr.size]⟩

theorem ledSetPixel (i r g b : Operand) : Statement (.ledSetPixel i r g b) := ⟨rfl, by simp [Instr.size]⟩

theorem ledSync : Statement .ledSync := ⟨rfl, by decide⟩

theorem ledBlur (a : Operand) : Statement (.ledBlur a) := ⟨rfl, by simp [Instr.size]⟩

theorem ledFill (r g b : Operand) : Statement (.ledFill r g b) := ⟨rfl, by simp [Instr.size]⟩

theorem unknown (opc : Byte) : Statement (.unknown opc) := ⟨rfl, by simp [Instr.size]⟩

end Sys2Proof.Laws.EncodeSize
end

