-- ==== Sys2Proof/Laws/Safety.lean ====
section
/-! SUPPORT. What the terms of the statements about runs and the boot image can be
(70_reset_and_hazards.md rules R132 and R122). -/

namespace Sys2Proof.Machine

theorem Mode.inRun_eq_true {m : Mode} :
    m.inRun = true ↔ m = .running ∨ m = .waitSleep ∨ m = .waitSync := by
  cases m <;> simp [Mode.inRun]

theorem Mode.inRun_eq_false {m : Mode} :
    m.inRun = false ↔ m = .unstarted ∨ m = .halted ∨ m = .faulted := by
  cases m <;> simp [Mode.inRun]

theorem State.runEnd_eq_normal {s t : State} :
    s.runEnd t = some .normal ↔ s.mode.inRun = true ∧ t.mode = .halted := by
  cases hs : s.mode.inRun <;> cases ht : t.mode <;> simp [State.runEnd, hs, ht]

theorem State.runEnd_eq_fault {s t : State} :
    s.runEnd t = some .fault ↔ s.mode.inRun = true ∧ t.mode = .faulted := by
  cases hs : s.mode.inRun <;> cases ht : t.mode <;> simp [State.runEnd, hs, ht]

theorem State.runEnd_eq_none {s t : State} :
    s.runEnd t = none ↔ s.mode.inRun = false ∨ (t.mode ≠ .halted ∧ t.mode ≠ .faulted) := by
  cases hs : s.mode.inRun <;> cases ht : t.mode <;> simp [State.runEnd, hs, ht]

/-- Every state of a run has a mode of a run. -/
theorem InRun.mode {start s : State} (h : InRun start s) (h0 : start.mode.inRun = true) : s.mode.inRun = true := by
  cases h with
  | start => exact h0
  | step _ _ _ _ ht => exact ht

/-- Later commands act on the pixels that earlier ones left lit. -/
theorem litAfter_append (lit : List Byte) (es es' : List OutEvent) :
    litAfter lit (es ++ es') = litAfter (litAfter lit es) es' := by
  induction es generalizing lit with
  | nil => rfl
  | cons e es ih => cases e <;> exact ih _

/-- A program that is left alone twice in a row is left alone. -/
theorem Alone.trans {a b c : State} (hab : Alone a b) (hbc : Alone b c) : Alone a c := by
  induction hbc with
  | start => exact hab
  | step s t _ hst ih => exact .step s t ih hst

end Sys2Proof.Machine
end

