-- ==== Sys2Proof/Laws/Step.lean ====
section
/-! SUPPORT. What a step of the block can do, said once for each agent. -/

namespace Sys2Proof.Machine

/-! ### The Interpreter -/

@[simp] theorem State.fetchFault_short (s : State) (pc0 off n : Nat) :
    s.fetchFault pc0 (.short off n) = s.raiseAt (pc0 + off) (.fetchOutOfBounds pc0 (pc0 + off) n) := rfl

@[simp] theorem State.fetchFault_guard (s : State) (pc0 off : Nat) (raw : Word) :
    s.fetchFault pc0 (.guard off raw) = s.raiseAt (pc0 + off) (.operandIndexGuard pc0 raw) := rfl

theorem State.interpMove_idle {s : State} (h : s.mode ≠ .running) : s.interpMove = .next s := by
  unfold State.interpMove
  split
  · contradiction
  · rfl

theorem State.interpMove_locked {s : State} {pc0 : Nat} (hm : s.mode = .running) (hpc : s.pc = .addr pc0)
    (ha : s.arb = .locked) : s.interpMove = s.lockedMove pc0 := by
  simp [State.interpMove, hm, hpc, ha]

theorem State.interpMove_racy {s : State} {pc : Nat} (hm : s.mode = .running) (hpc : s.pc = .addr pc)
    (ha : s.arb = .racy) : s.interpMove = s.racyMove (s.fetchingFrom pc) := by
  simp [State.interpMove, hm, hpc, ha]

/-- Everything the Interpreter's move can answer. -/
theorem State.interpMove_eq_next {s t : State} (h : s.interpMove = .next t) :
    (s.mode ≠ .running ∧ t = s) ∨
    (∃ pc, s.mode = .running ∧ s.pc = .addr pc ∧ s.arb = .locked ∧ s.lockedMove pc = .next t) ∨
    (∃ pc, s.mode = .running ∧ s.pc = .addr pc ∧ s.arb = .racy ∧ s.racyMove (s.fetchingFrom pc) = .next t) := by
  by_cases hm : s.mode = .running
  · cases hpc : s.pc with
    | unset => simp [State.interpMove, hm, hpc] at h
    | addr pc =>
      cases ha : s.arb with
      | locked => exact .inr (.inl ⟨pc, hm, rfl, rfl, by rwa [State.interpMove_locked hm hpc ha] at h⟩)
      | racy => exact .inr (.inr ⟨pc, hm, rfl, rfl, by rwa [State.interpMove_racy hm hpc ha] at h⟩)
  · rw [State.interpMove_idle hm] at h
    cases h
    exact .inl ⟨hm, rfl⟩

/-- One whole instruction: it executes what it decodes, or faults at the field that is missing. -/
theorem State.lockedMove_eq_next {s t : State} {pc0 : Nat} (h : s.lockedMove pc0 = .next t) :
    (∃ i rest, decode (s.stream pc0) = .ok (i, rest) ∧ exec i s = .next t) ∨
    ∃ e, decode (s.stream pc0) = .error e ∧ t = s.fetchFault pc0 e := by
  unfold State.lockedMove at h
  split at h
  · rename_i i rest hd
    exact .inl ⟨i, rest, hd, h⟩
  · rename_i e hd
    cases h
    exact .inr ⟨e, hd, rfl⟩

/-- One racy action: execute, fault, or read one byte. -/
theorem State.racyMove_eq_next {s t : State} {f : Fetching} (h : s.racyMove f = .next t) :
    (∃ i rest, decode f.bytes = .ok (i, rest) ∧
      exec i { s with pc := .addr f.pc0, fetching := none } = .next t) ∨
    (∃ e, decode f.bytes = .error e ∧ t = s.fetchFault f.pc0 e) ∨
    (∃ off n, decode f.bytes = .error (.short off n) ∧ f.pc0 + off + n ≤ s.progMem ∧
      t = { s with
        fetching := some ⟨f.pc0, f.bytes ++ [s.mem.read (f.pc0 + f.bytes.length)]⟩
        pc := .addr (f.pc0 + fieldsDone (f.bytes ++ [s.mem.read (f.pc0 + f.bytes.length)])) }) := by
  unfold State.racyMove at h
  split at h
  · rename_i i rest hd
    exact .inl ⟨i, rest, hd, h⟩
  · rename_i off n hd
    split at h
    · cases h
      exact .inr (.inl ⟨_, hd, rfl⟩)
    · cases h
      exact .inr (.inr ⟨off, n, hd, by omega, rfl⟩)
  · rename_i off raw hd
    cases h
    exact .inr (.inl ⟨_, hd, rfl⟩)

/-! ### The Loader -/

theorem State.writeAt_of_le {s : State} {offset : Nat} {bytes : List Byte}
    (h : offset + bytes.length ≤ s.progMem) :
    s.writeAt offset bytes = some (s.writeBytes offset bytes) := by
  rw [State.writeAt, if_neg (by omega)]

theorem State.stageChunk_payload (s : State) (bytes : List Byte) :
    (s.stageChunk bytes).stagePayload = bytes.drop 2 := by
  simp [State.stagePayload, State.stageChunk]

theorem State.stageChunk_offset (s : State) {bytes : List Byte} (h : 2 ≤ bytes.length) :
    (s.stageChunk bytes).stageOffset = (bytes.getD 0 0).toNat + 256 * (bytes.getD 1 0).toNat := by
  match bytes, h with
  | lo :: hi :: rest, _ => rfl

theorem cellsFrom_length (a : Nat) (bytes : List Byte) : (cellsFrom a bytes).length = bytes.length := by
  induction bytes generalizing a with
  | nil => rfl
  | cons b rest ih => simp [cellsFrom, ih]

theorem cellsFrom_getElem? (a : Nat) (bytes : List Byte) (k : Nat) (h : k < bytes.length) :
    (cellsFrom a bytes)[k]? = some (a + k, bytes[k]) := by
  induction bytes generalizing a k with
  | nil => simp at h
  | cons b rest ih =>
    cases k with
    | zero => rfl
    | succ k =>
      have := ih (a + 1) k (by simpa using h)
      simpa [cellsFrom, Nat.add_assoc, Nat.add_comm 1] using this

theorem mem_cellsFrom {a : Nat} {bytes : List Byte} {c : Host.Cell} (h : c ∈ cellsFrom a bytes) :
    a ≤ c.1 ∧ c.1 < a + bytes.length := by
  induction bytes generalizing a with
  | nil => cases h
  | cons b rest ih =>
    simp only [List.length_cons]
    obtain rfl | h := List.mem_cons.1 h
    · exact ⟨Nat.le_refl _, by simp only; omega⟩
    · have := ih h
      omega

/-- An accepted chunk under `locked`. -/
theorem State.acceptChunk_locked {s : State} (ha : s.arb = .locked) {offset : Nat} {payload : List Byte}
    (h : offset + payload.length ≤ s.progMem) :
    s.acceptChunk offset payload = (s.writeBytes offset payload).clearStage := by
  simp [State.acceptChunk, ha, State.writeAt_of_le h]

/-- An accepted chunk under `racy`. -/
theorem State.acceptChunk_racy {s : State} (ha : s.arb = .racy) (offset : Nat) (payload : List Byte) :
    s.acceptChunk offset payload = (s.setPending (cellsFrom offset payload)).clearStageIfDone := by
  simp [State.acceptChunk, ha]

/-- The cleared staging buffer does not remember what was staged. -/
theorem State.stageChunk_writeBytes_clearStage (s : State) (bytes : List Byte) (a : Nat) (payload : List Byte) :
    ((s.stageChunk bytes).writeBytes a payload).clearStage = (s.writeBytes a payload).clearStage := rfl

/-- Everything `apply_chunk` can do (20_memory.md rule R37): it is rejected with one cause, or its payload, which fits
the store, is written whole (`locked`), or waits to be written (`racy`). -/
theorem State.applyChunk_cases (s : State) (bytes : List Byte) :
    (∃ f, 4 ≤ f.code ∧ s.applyChunk bytes = s.raiseLoader f) ∨
    (2 ≤ bytes.length ∧ bytes.length ≤ Config.stageCap ∧
      ∃ offset, offset + (bytes.drop 2).length ≤ s.progMem ∧
        ((s.arb = .locked ∧ s.applyChunk bytes = (s.writeBytes offset (bytes.drop 2)).clearStage) ∨
          (s.arb = .racy ∧ s.applyChunk bytes =
            ((s.stageChunk bytes).setPending (cellsFrom offset (bytes.drop 2))).clearStageIfDone))) := by
  unfold State.applyChunk
  split
  · exact .inl ⟨_, by simp [FaultRecord.code], rfl⟩
  · split
    · exact .inl ⟨_, by simp [FaultRecord.code], rfl⟩
    · simp only [State.stageChunk_payload]
      split
      · exact .inl ⟨_, by simp [FaultRecord.code], rfl⟩
      · rename_i hfit
        refine .inr ⟨by omega, by omega, _, Nat.not_lt.1 hfit, ?_⟩
        cases ha : s.arb with
        | locked =>
          refine .inl ⟨rfl, ?_⟩
          rw [State.acceptChunk_locked (s := s.stageChunk bytes) ha (Nat.not_lt.1 hfit), State.stageChunk_writeBytes_clearStage]
        | racy => exact .inr ⟨rfl, State.acceptChunk_racy (s := s.stageChunk bytes) ha _ _⟩

/-! ### Clearing the staging buffer touches only the staging buffer -/

@[simp] theorem State.clearStageIfDone_x (s : State) : s.clearStageIfDone.x = s.x := by
  unfold State.clearStageIfDone
  split <;> rfl

@[simp] theorem State.clearStageIfDone_pc (s : State) : s.clearStageIfDone.pc = s.pc := by
  unfold State.clearStageIfDone
  split <;> rfl

@[simp] theorem State.clearStageIfDone_flag (s : State) : s.clearStageIfDone.flag = s.flag := by
  unfold State.clearStageIfDone
  split <;> rfl

@[simp] theorem State.clearStageIfDone_mode (s : State) : s.clearStageIfDone.mode = s.mode := by
  unfold State.clearStageIfDone
  split <;> rfl

@[simp] theorem State.clearStageIfDone_fault (s : State) : s.clearStageIfDone.fault = s.fault := by
  unfold State.clearStageIfDone
  split <;> rfl

@[simp] theorem State.clearStageIfDone_npix (s : State) : s.clearStageIfDone.npix = s.npix := by
  unfold State.clearStageIfDone
  split <;> rfl

@[simp] theorem State.clearStageIfDone_mem (s : State) : s.clearStageIfDone.mem = s.mem := by
  unfold State.clearStageIfDone
  split <;> rfl

@[simp] theorem State.clearStageIfDone_out (s : State) : s.clearStageIfDone.out = s.out := by
  unfold State.clearStageIfDone
  split <;> rfl

@[simp] theorem State.clearStageIfDone_progMem (s : State) : s.clearStageIfDone.progMem = s.progMem := by
  unfold State.clearStageIfDone
  split <;> rfl

@[simp] theorem State.clearStageIfDone_arb (s : State) : s.clearStageIfDone.arb = s.arb := by
  unfold State.clearStageIfDone
  split <;> rfl

@[simp] theorem State.clearStageIfDone_schedule (s : State) : s.clearStageIfDone.schedule = s.schedule := by
  unfold State.clearStageIfDone
  split <;> rfl

@[simp] theorem State.clearStageIfDone_fetching (s : State) : s.clearStageIfDone.fetching = s.fetching := by
  unfold State.clearStageIfDone
  split <;> rfl

@[simp] theorem State.clearStageIfDone_pending (s : State) : s.clearStageIfDone.pending = s.pending := by
  unfold State.clearStageIfDone
  split <;> rfl

/-- Everything a Loader action can do: nothing, or one byte written. -/
theorem State.loaderWrite_cases (s : State) (k : Nat) :
    s.loaderWrite k = s ∨
    ∃ a b, s.mode ≠ .faulted ∧ s.pending[k]? = some (a, b) ∧
      s.loaderWrite k = ((s.writeByte a b).setPending (s.pending.eraseIdx k)).clearStageIfDone := by
  unfold State.loaderWrite
  split
  · exact .inl rfl
  · split
    · exact .inl rfl
    · rename_i hm _ a b hp
      exact .inr ⟨a, b, hm, hp, rfl⟩

/-- The staging buffer is cleared exactly when nothing is left to write. -/
theorem State.clearStageIfDone_cases (s : State) :
    (s.pending = [] ∧ s.clearStageIfDone = s.clearStage) ∨ (s.pending ≠ [] ∧ s.clearStageIfDone = s) := by
  unfold State.clearStageIfDone
  split
  · exact .inl ⟨‹_›, rfl⟩
  · exact .inr ⟨‹_›, rfl⟩

/-- What a Loader action leaves alone. -/
theorem State.loaderWrite_frame (s : State) (k : Nat) :
    (s.loaderWrite k).x = s.x ∧ (s.loaderWrite k).flag = s.flag ∧ (s.loaderWrite k).npix = s.npix ∧
    (s.loaderWrite k).out = s.out ∧ (s.loaderWrite k).pc = s.pc ∧ (s.loaderWrite k).mode = s.mode ∧
    (s.loaderWrite k).fault = s.fault ∧ (s.loaderWrite k).progMem = s.progMem ∧ (s.loaderWrite k).arb = s.arb ∧
    (s.loaderWrite k).schedule = s.schedule ∧ (s.loaderWrite k).fetching = s.fetching := by
  obtain h | ⟨a, b, _, _, h⟩ := s.loaderWrite_cases k <;> simp [h]

/-- What `apply_chunk` leaves alone: "it changes nothing else" (20_memory.md rule R37). -/
theorem State.applyChunk_frame (s : State) (bytes : List Byte) :
    (s.applyChunk bytes).x = s.x ∧ (s.applyChunk bytes).flag = s.flag ∧ (s.applyChunk bytes).npix = s.npix ∧
    (s.applyChunk bytes).out = s.out ∧ (s.applyChunk bytes).pc = s.pc ∧
    (s.applyChunk bytes).progMem = s.progMem ∧ (s.applyChunk bytes).arb = s.arb ∧
    (s.applyChunk bytes).schedule = s.schedule := by
  obtain ⟨f, _, h⟩ | ⟨_, _, offset, _, ⟨_, h⟩ | ⟨_, h⟩⟩ := s.applyChunk_cases bytes <;> simp [h]

/-! ### The environment and the step -/

/-- Everything the `run` event can do (10_state.md rule R21). -/
theorem State.runEvent_cases (s : State) :
    (s.mode = .unstarted ∧ s.runEvent = (s.setPc 0).setMode .running) ∨
    (s.mode = .halted ∧ s.runEvent = s.setMode .running) ∨
    (s.mode ≠ .unstarted ∧ s.mode ≠ .halted ∧ s.runEvent = s) := by
  cases h : s.mode <;> simp [State.runEvent, h]

/-- Everything a completion event can do (10_state.md rule R22). -/
theorem State.wakeEvent_cases (s : State) :
    (s.mode = .waitSleep ∧ s.wakeEvent = s.setMode .running) ∨ (s.mode ≠ .waitSleep ∧ s.wakeEvent = s) := by
  cases h : s.mode <;> simp [State.wakeEvent, h]

theorem State.syncDoneEvent_cases (s : State) :
    (s.mode = .waitSync ∧ s.syncDoneEvent = s.setMode .running) ∨ (s.mode ≠ .waitSync ∧ s.syncDoneEvent = s) := by
  cases h : s.mode <;> simp [State.syncDoneEvent, h]

/-- Everything a delivered chunk can do. -/
theorem State.chunkEvent_cases (s : State) (bytes : List Byte) :
    (s.mode = .faulted ∧ s.chunkEvent bytes = s) ∨
    (s.mode ≠ .faulted ∧ s.pending = [] ∧ s.chunkEvent bytes = s.applyChunk bytes) ∨
    (s.mode ≠ .faulted ∧ s.pending ≠ [] ∧
      s.chunkEvent bytes = (s.setSchedule (.input (.chunk bytes) :: s.schedule)).loaderWrite 0) := by
  unfold State.chunkEvent
  split
  · exact .inl ⟨‹_›, rfl⟩
  · split
    · exact .inr (.inl ⟨‹_›, ‹_›, rfl⟩)
    · exact .inr (.inr ⟨‹_›, ‹_›, rfl⟩)

theorem step_of_nil {s : State} (h : s.schedule = []) : step s = s.interpMove := by
  simp [step, h]

theorem step_of_cons {s : State} {turn : Turn} {later : List Turn} (h : s.schedule = turn :: later) :
    step s = (s.setSchedule later).move turn := by
  simp [step, h]

/-- Everything a step can do: the Interpreter moves, the Loader writes a byte, or an input event takes effect. -/
theorem step_eq_next {s t : State} (h : step s = .next t) :
    (s.schedule = [] ∧ s.interpMove = .next t) ∨
    (∃ later, s.schedule = .interp :: later ∧ (s.setSchedule later).interpMove = .next t) ∨
    (∃ k later, s.schedule = .loader k :: later ∧ t = (s.setSchedule later).loaderWrite k) ∨
    (∃ e later, s.schedule = .input e :: later ∧ t = (s.setSchedule later).inputEvent e) := by
  cases hs : s.schedule with
  | nil => exact .inl ⟨rfl, by rwa [step_of_nil hs] at h⟩
  | cons turn later =>
    rw [step_of_cons hs] at h
    cases turn with
    | interp => exact .inr (.inl ⟨later, rfl, h⟩)
    | loader k => cases h; exact .inr (.inr (.inl ⟨k, later, rfl, rfl⟩))
    | input e => cases h; exact .inr (.inr (.inr ⟨e, later, rfl, rfl⟩))

/-! ### Every memory operation keeps the canonical form -/

theorem State.reset_mem_wf : State.reset.mem.wf = true := rfl

theorem State.loaderWrite_mem_wf {s : State} (h : s.mem.wf = true) (k : Nat) : (s.loaderWrite k).mem.wf = true := by
  obtain e | ⟨a, b, _, _, e⟩ := s.loaderWrite_cases k
  · rwa [e]
  · simpa [e] using Memory.wf_write h a b

theorem State.applyChunk_mem_wf {s : State} (h : s.mem.wf = true) (bytes : List Byte) :
    (s.applyChunk bytes).mem.wf = true := by
  obtain ⟨f, _, e⟩ | ⟨_, _, offset, _, ⟨_, e⟩ | ⟨_, e⟩⟩ := s.applyChunk_cases bytes
  · simpa [e]
  · simpa [e] using Memory.wf_writeBytes _ h offset
  · simpa [e]

theorem State.withFetchWord_mem_wf {s : State} (h : s.mem.wf = true) (nbits w : Nat) :
    (s.withFetchWord nbits w).mem.wf = true :=
  Memory.wf_writeBytes _ h _

end Sys2Proof.Machine
end

