-- ==== Sys2Proof/Tests/Slice0.lean ====
section
/-! SUPPORT. The model's own tests: expected results are the spec's (spec/95_test_vectors.md, and the worked examples of
the instruction rules); then a witness for the hypotheses of every statement. -/

namespace Sys2Proof.Tests

open Sys2Proof.Machine

/-- A running Interpreter at `a`, where the given bytes lie; the store ends right after them. -/
def tight (a : Nat) (bytes : List Byte) : State :=
  { State.resetWith (a + bytes.length) .locked [] with
    mem := Memory.writeBytes [] a bytes, pc := .addr a, mode := .running }

/-- The same at address 0 with register values. -/
def tightX (x : Vector Word 4) (bytes : List Byte) : State := { tight 0 bytes with x := x }

/-- The reset state of the Loader vectors, with one event due: `mem[510] = 11`, `mem[511] = 22`. -/
def loading (bytes : List Byte) : State :=
  { State.resetWith 512 .locked [.input (.chunk bytes)] with mem := [(510, 0x11), (511, 0x22)] }

/-- The next state, if there is one. -/
def nextOf : Result → Option State
  | .next s => some s
  | _ => none

/-- The state after one step. -/
def after (s : State) : Option State := nextOf (step s)

/-- The instruction decoded, and what follows it. -/
def decoded (bytes : List Byte) : Option (Instr × List Byte) := (decode bytes).toOption

/-! ### WellFormed refuses what no encoding can carry -/

theorem test_wf_operand : (Operand.lit 65532).wf = false ∧ (Operand.lit 65531).wf = true := by decide
theorem test_wf_cmpOp : (CmpOp.other 0x3D).wf = false ∧ (CmpOp.other 0x3E).wf = false ∧
    (CmpOp.other 0x3C).wf = false ∧ (CmpOp.other 0x21).wf = false ∧ (CmpOp.other 0x3F).wf = true := by decide
theorem test_wf_print : (Instr.print [0x41, 0x00]).wf = false ∧ (Instr.print [0x41]).wf = true := by decide
theorem test_wf_ro : (Instr.set 0 (.lit 65532)).wf = false ∧ (Instr.add 0 (.lit 65533)).wf = false ∧
    (Instr.sub 0 (.lit 65535)).wf = false := by decide
theorem test_wf_cmp : (Instr.cmp (.other 0x3C) (.lit 0) (.lit 0)).wf = false ∧
    (Instr.cmp .eq (.lit 65532) (.lit 0)).wf = false ∧ (Instr.cmp .eq (.lit 0) (.lit 65532)).wf = false := by decide
theorem test_wf_o : (Instr.cmpz (.lit 65532)).wf = false ∧ (Instr.cmpnz (.lit 65532)).wf = false ∧
    (Instr.sleep (.lit 65532)).wf = false ∧ (Instr.jump (.lit 65532)).wf = false ∧
    (Instr.jumpCond (.lit 65532)).wf = false ∧ (Instr.ledSetN (.lit 65532)).wf = false ∧
    (Instr.ledBlur (.lit 65532)).wf = false := by decide
theorem test_wf_o4 : (Instr.ledSetPixel (.lit 65532) (.lit 0) (.lit 0) (.lit 0)).wf = false ∧
    (Instr.ledSetPixel (.lit 0) (.lit 65532) (.lit 0) (.lit 0)).wf = false ∧
    (Instr.ledSetPixel (.lit 0) (.lit 0) (.lit 65532) (.lit 0)).wf = false ∧
    (Instr.ledSetPixel (.lit 0) (.lit 0) (.lit 0) (.lit 65532)).wf = false := by decide
theorem test_wf_o3 : (Instr.ledFill (.lit 65532) (.lit 0) (.lit 0)).wf = false ∧
    (Instr.ledFill (.lit 0) (.lit 65532) (.lit 0)).wf = false ∧
    (Instr.ledFill (.lit 0) (.lit 0) (.lit 65532)).wf = false := by decide
theorem test_wf_unknown : (Instr.unknown 0x00).wf = false ∧ (Instr.unknown 0x10).wf = false ∧
    (Instr.unknown 0x11).wf = true := by decide

/-! ### Words written out from 30_encoding.md rules R52, R53, R56 decode to their instructions -/

theorem test_decode_exit : decoded [0x00, 0x99] = some (.exit, [0x99]) := by decide
theorem test_decode_print :
    decoded [0x01, 0xFC, 0xFF, 0x41, 0x00, 0x99] = some (.print [0xFC, 0xFF, 0x41], [0x99]) := by decide
theorem test_decode_set : decoded [0x02, 0x01, 0xFC, 0xFF, 0x99] = some (.set 1 (.reg 0), [0x99]) := by decide
theorem test_decode_add : decoded [0x03, 0xFF, 0xFB, 0xFF] = some (.add 255 (.lit 65531), []) := by decide
theorem test_decode_sub : decoded [0x04, 0x02, 0x39, 0x30] = some (.sub 2 (.lit 12345), []) := by decide
theorem test_decode_cmp : decoded [0x05, 0x3C, 0xFC, 0xFF, 0x0A, 0x00] = some (.cmp .lt (.reg 0) (.lit 10), []) := by
  decide
theorem test_decode_cmp_ops : CmpOp.ofByte 0x3D = .eq ∧ CmpOp.ofByte 0x3E = .gt ∧ CmpOp.ofByte 0x3C = .lt ∧
    CmpOp.ofByte 0x21 = .ne ∧ CmpOp.ofByte 0x3F = .other 0x3F := by decide
theorem test_decode_cmpz : decoded [0x06, 0xFD, 0xFF] = some (.cmpz (.reg 1), []) := by decide
theorem test_decode_cmpnz : decoded [0x07, 0xFE, 0xFF] = some (.cmpnz (.reg 2), []) := by decide
theorem test_decode_sleep : decoded [0x08, 0xF4, 0x01] = some (.sleep (.lit 500), []) := by decide
theorem test_decode_jump : decoded [0x09, 0x00, 0x01] = some (.jump (.lit 256), []) := by decide
theorem test_decode_jumpCond : decoded [0x0A, 0xFF, 0xFF] = some (.jumpCond (.reg 3), []) := by decide
theorem test_decode_ledClear : decoded [0x0B] = some (.ledClear, []) := by decide
theorem test_decode_ledSetN : decoded [0x0C, 0x05, 0x01] = some (.ledSetN (.lit 261), []) := by decide
theorem test_decode_ledSetPixel : decoded [0x0D, 0x02, 0x00, 0x0A, 0x00, 0x14, 0x00, 0x1E, 0x00] =
    some (.ledSetPixel (.lit 2) (.lit 10) (.lit 20) (.lit 30), []) := by decide
theorem test_decode_ledSync : decoded [0x0E] = some (.ledSync, []) := by decide
theorem test_decode_ledBlur : decoded [0x0F, 0x09, 0x00] = some (.ledBlur (.lit 9), []) := by decide
theorem test_decode_ledFill : decoded [0x10, 0xFF, 0xFF, 0x02, 0x00, 0xFF, 0x01] =
    some (.ledFill (.reg 3) (.lit 2) (.lit 511), []) := by decide
theorem test_decode_unknown : decoded [0x11, 0x02] = some (.unknown 0x11, [0x02]) ∧
    decoded [0xFF] = some (.unknown 0xFF, []) := by decide
/-- The table's numbering: byte 0 in bits 7:0. -/
theorem test_decode_tableWord : decodeTableWord 32 0x0005FF03 = some (.add 255 (.lit 5)) ∧
    decodeTableWord 8 0x01 = some (.print []) := by decide
theorem test_step_tableWord :
    (after (State.reset.withFetchWord 32 0x00030002)).map (·.x[0]) = some 3 := by decide

/-! ### One step of each instruction (95_test_vectors.md) -/

/-- Vector E2: an EXIT in the last byte of the store. -/
theorem test_exit : (after (tight 511 [0x00])).map (fun t => (t.pc, t.mode, t.fault)) =
    some (.addr 512, .halted, none) := by decide
/-- Rule R72's example, with "Hi%d". -/
theorem test_print : (after (tightX #v[7, 0, 0, 0] [0x01, 0x48, 0x69, 0x25, 0x64, 0x00])).map
    (fun t => (t.out, t.pc)) = some ([.print [0x48, 0x69, 0x25, 0x64] 7 0 0 0], .addr 6) := by decide
/-- Vector F4: no terminator inside the store. -/
theorem test_print_unterminated : (after (tight 508 [0x01, 0x41, 0x42, 0x43])).map (fun t => (t.fault, t.pc, t.out)) =
    some (some (.fetchOutOfBounds 508 512 1), .addr 512, []) := by decide
/-- The second step of vector O3: `FF FF` is `x[3]`, not 65535. -/
theorem test_set : (after (tightX #v[0, 0, 0, 9] [0x02, 0x02, 0xFF, 0xFF])).map (fun t => (t.x, t.pc)) =
    some (#v[0, 0, 9, 9], .addr 4) := by decide
/-- Vector A8. -/
theorem test_set_badRegIndex : (after (tight 0 [0x02, 0x04, 0x00, 0x00])).map (fun t => (t.fault, t.mode, t.pc, t.x)) =
    some (some (.badRegIndex 0 4), .faulted, .addr 4, #v[0, 0, 0, 0]) := by decide
/-- Vector A4: the operand is read before the write. -/
theorem test_add : (after (tightX #v[16385, 0, 0, 0] [0x03, 0x00, 0xFC, 0xFF])).map (·.x) =
    some #v[32770, 0, 0, 0] := by decide
/-- Rule R76's example: 65530 + 10 wraps. -/
theorem test_add_wraps : (after (tightX #v[0, 65530, 0, 0] [0x03, 0x01, 0x0A, 0x00])).map (fun t => (t.x, t.flag)) =
    some (#v[0, 4, 0, 0], false) := by decide
/-- Vector A5: 0 - 1 wraps. -/
theorem test_sub_wraps : (after (tight 0 [0x04, 0x00, 0x01, 0x00])).map (·.x) = some #v[65535, 0, 0, 0] := by decide
/-- Rule R77's example. -/
theorem test_sub : (after (tightX #v[3, 0, 0, 0] [0x04, 0x00, 0x01, 0x00])).map (fun t => (t.x, t.pc)) =
    some (#v[2, 0, 0, 0], .addr 4) := by decide
/-- The flag after `CMP c, a, b`. -/
def flagAfterCmp (c a b : Byte) : Option Bool := (after (tight 0 [0x05, c, a, 0x00, b, 0x00])).map (·.flag)
/-- The source's triples S6. -/
theorem test_cmp_true : flagAfterCmp 0x3D 5 5 = some true ∧ flagAfterCmp 0x3E 6 5 = some true ∧
    flagAfterCmp 0x3C 5 6 = some true ∧ flagAfterCmp 0x21 5 6 = some true := by decide
/-- The source's triples S6 and vectors C1, C2, C3. -/
theorem test_cmp_false : flagAfterCmp 0x3D 5 6 = some false ∧ flagAfterCmp 0x21 5 5 = some false ∧
    flagAfterCmp 0x3E 5 5 = some false ∧ flagAfterCmp 0x3C 6 5 = some false ∧ flagAfterCmp 0x3E 5 6 = some false := by
  decide
/-- The second step of vector C10: an unknown op leaves the flag. -/
theorem test_cmp_unknown : (after { tight 3 [0x05, 0x3F, 0x01, 0x00, 0x02, 0x00] with flag := true }).map
    (fun t => (t.flag, t.pc)) = some (true, .addr 9) := by decide
/-- Vectors C5, C6. -/
theorem test_cmpz : (after (tight 0 [0x06, 0x00, 0x00])).map (·.flag) = some true ∧
    (after (tight 0 [0x06, 0x01, 0x00])).map (·.flag) = some false := by decide
/-- Rule R81: 0x0100 is not zero. -/
theorem test_cmpz_word : (after { tight 0 [0x06, 0x00, 0x01] with flag := true }).map (·.flag) = some false := by decide
/-- Vectors C7, C8. -/
theorem test_cmpnz : (after { tight 0 [0x07, 0x00, 0x00] with flag := true }).map (·.flag) = some false ∧
    (after (tight 0 [0x07, 0x01, 0x00])).map (·.flag) = some true := by decide
/-- Vector W1. -/
theorem test_sleep : (after (tight 0 [0x08, 0xF4, 0x01])).map (fun t => (t.out, t.mode, t.pc)) =
    some ([.sleep 500], .waitSleep, .addr 3) := by decide
/-- Vector W2: SLEEP 0 is no exception. -/
theorem test_sleep_zero : (after (tight 0 [0x08, 0x00, 0x00])).map (fun t => (t.out, t.mode)) =
    some ([.sleep 0], .waitSleep) := by decide
/-- Rule R86's example. -/
theorem test_jump : (after (tight 14 [0x09, 0x04, 0x00])).map (·.pc) = some (.addr 4) := by decide
/-- The second step of vector J6: the jump out of the store succeeds. -/
theorem test_jump_far : (after (tightX #v[0, 0, 600, 0] [0x09, 0xFE, 0xFF])).map (fun t => (t.pc, t.mode)) =
    some (.addr 600, .running) := by decide
/-- Rule R87's example. -/
theorem test_jumpCond : (after { tight 11 [0x0A, 0x04, 0x00] with flag := true }).map (fun t => (t.pc, t.flag)) =
      some (.addr 4, true) ∧
    (after (tight 11 [0x0A, 0x04, 0x00])).map (·.pc) = some (.addr 14) := by decide
/-- Rule R90's example. -/
theorem test_ledClear : (after { tight 0 [0x0B] with npix := 7 }).map (fun t => (t.out, t.npix, t.pc)) =
    some ([.displayClear], 7, .addr 1) := by decide
/-- Vector O5: 261 narrows to 5. -/
theorem test_ledSetN : (after (tight 0 [0x0C, 0x05, 0x01])).map (fun t => (t.out, t.npix)) =
    some ([.displaySetPixelCount 5], 5) := by decide
/-- The second step of vector O4: narrowing applies to register contents. -/
theorem test_ledSetPixel :
    (after (tightX #v[300, 0, 0, 0] [0x0D, 0xFC, 0xFF, 0xFC, 0xFF, 0x05, 0x00, 0xFC, 0xFF])).map
      (fun t => (t.out, t.pc)) = some ([.displaySetPixel 44 44 5 44], .addr 9) := by decide
/-- Rule R92's example. -/
theorem test_ledSetPixel_order : (after (tight 0 [0x0D, 0x02, 0x00, 0x0A, 0x00, 0x14, 0x00, 0x1E, 0x00])).map (·.out) =
    some [.displaySetPixel 2 10 20 30] := by decide
/-- Rule R93's example. -/
theorem test_ledSync : (after (tight 0 [0x0E])).map (fun t => (t.out, t.mode, t.pc)) =
    some ([.displaySync true], .waitSync, .addr 1) := by decide
/-- Vectors L8, L10, L11. -/
theorem test_ledBlur : (after (tight 0 [0x0F, 0x00, 0x00])).map (·.out) = some [.displayBlur 1] ∧
    (after (tight 0 [0x0F, 0x04, 0x00])).map (·.out) = some [.displayBlur 4] ∧
    (after (tight 0 [0x0F, 0x05, 0x00])).map (·.out) = some [.displayBlur 4] := by decide
/-- Vector L13: the whole 16-bit value is clamped. -/
theorem test_ledBlur_word : (after (tight 0 [0x0F, 0x02, 0x01])).map (·.out) = some [.displayBlur 4] := by decide
/-- The second step of vector L4. -/
theorem test_ledFill : (after { tight 0 [0x10, 0x01, 0x00, 0x02, 0x00, 0x03, 0x00] with npix := 2 }).map (·.out) =
    some [.displaySetPixel 0 1 2 3, .displaySetPixel 1 1 2 3] := by decide
/-- Vector L5: nothing to fill. -/
theorem test_ledFill_none : (after (tight 0 [0x10, 0x01, 0x00, 0x02, 0x00, 0x03, 0x00])).map (fun t => (t.out, t.pc)) =
    some ([], .addr 7) := by decide
/-- Rule R98's example. -/
theorem test_unknown : (after (tight 7 [0xFF])).map (fun t => (t.pc, t.mode, t.out)) =
    some (.addr 8, .running, []) := by decide

/-! ### Faults, the Loader and events (95_test_vectors.md) -/

/-- Vector F2. -/
theorem test_fault_straddle : (after (tight 510 [0x09, 0x00])).map (fun t => (t.fault, t.pc)) =
    some (some (.fetchOutOfBounds 510 511 2), .addr 511) := by decide
/-- Vector F5: the fetch fault comes before `BadRegIndex`. -/
theorem test_fault_priority : (after (tight 509 [0x02, 0x07, 0x01])).map (fun t => (t.fault, t.pc)) =
    some (some (.fetchOutOfBounds 509 511 2), .addr 511) := by decide
/-- Vector K1. -/
theorem test_chunk : (after (loading [0x0A, 0x00, 1, 2, 3, 4])).map (fun t => (t.mem.take 4, t.mode)) =
    some ([(10, 1), (11, 2), (12, 3), (13, 4)], .unstarted) := by decide
/-- Vectors K2, K5, K6, K7. -/
theorem test_chunk_rejected :
    (after (loading [0xFF, 0x01, 0xAA, 0xBB])).map (fun t => (t.fault, t.mem)) =
      some (some (.loaderOverflow 511 2), [(510, 0x11), (511, 0x22)]) ∧
    (after (loading [0x01, 0x02])).map (·.fault) = some (some (.loaderOverflow 513 0)) ∧
    (after (loading [0x07])).map (·.fault) = some (some (.loaderTooShort 1)) ∧
    (after (loading [])).map (·.fault) = some (some (.loaderTooShort 0)) := by decide
/-- Vectors K3, K4. -/
theorem test_chunk_fits :
    (after (loading [0xFE, 0x01, 0xAA, 0xBB])).map (fun t => (t.fault, t.mem)) =
      some (none, [(510, 0xAA), (511, 0xBB)]) ∧
    (after (loading [0x00, 0x02])).map (fun t => (t.fault, t.mem)) =
      some (none, [(510, 0x11), (511, 0x22)]) := by decide
/-- Vector K8, for any 257 bytes. -/
theorem test_chunk_tooLong (bytes : List Byte) (h : bytes.length = 257) :
    (after (loading bytes)).map (·.fault) = some (some (.loaderTooLong 257)) := by
  rw [after, step_of_cons (s := loading bytes) rfl]
  simp [State.move, State.inputEvent, State.chunkEvent, loading, State.resetWith, State.applyChunk, Config.stageCap, h,
    nextOf]
/-- Vectors W2 and L7: the other wait's completion is ignored. -/
theorem test_completions :
    (after { tight 3 [] with mode := .waitSleep, schedule := [.input .syncDone] }).map (·.mode) = some .waitSleep ∧
    (after { tight 3 [] with mode := .waitSync, schedule := [.input .wake] }).map (·.mode) = some .waitSync := by decide
/-- The last paragraph of program P8: half-written operands under `racy`, low byte new and high byte old. -/
theorem test_racy_mixture :
    (nextOf (Sys2Proof.core.run 6 { tight 0 [0x09, 0x00, 0x01] with
      arb := .racy
      schedule := [.interp, .input (.chunk [0x01, 0x00, 0x03, 0x02]), .loader 0, .interp, .interp, .interp] })).map
      (·.pc) = some (.addr 0x0103) := by decide

/-! ### Witnesses: the hypotheses of each statement can be met together -/

/-- The hypotheses of `StepRuns` and of `StepFaults` for these bytes, met at address 4 with nothing behind them. -/
abbrev Met (bytes : List Byte) : Prop := (tight 4 bytes).ready 4 ∧ (tight 4 bytes).stream 4 = bytes

/-- The operand fields whose values lie at the bounds: literal 0, the largest literal, the first and the last register. -/
theorem test_witness_operandFields :
    Operand.ofRaw ((0x00 : Byte) ++ (0x00 : Byte)) = some (.lit 0) ∧
    Operand.ofRaw ((0xFF : Byte) ++ (0xFB : Byte)) = some (.lit 65531) ∧
    Operand.ofRaw ((0xFF : Byte) ++ (0xFC : Byte)) = some (.reg 0) ∧
    Operand.ofRaw ((0xFF : Byte) ++ (0xFF : Byte)) = some (.reg 3) := by decide

theorem test_witness_DecodeEncodeRoundTrip :
    (Instr.ledSetPixel (.lit 0) (.lit 65531) (.reg 0) (.reg 3)).wf = true ∧ (Instr.print [0x01, 0xFF]).wf = true ∧
    (Instr.cmp (.other 0x00) (.reg 0) (.reg 0)).wf = true ∧ (Instr.set 255 (.reg 3)).wf = true ∧
    (Instr.unknown 0x11).wf = true := by decide
theorem test_witness_DecodedBytesAreTheEncoding : decode [0x05, 0x00, 0xFB, 0xFF, 0xFC, 0xFF, 0x07] =
    .ok (.cmp (.other 0x00) (.lit 65531) (.reg 0), [0x07]) := by rfl
theorem test_witness_DecodeFailsOnlyForMissingBytes :
    decode [] = .error (.short 0 1) ∧ decode [0x01, 0x41] = .error (.short 2 1) ∧
    decode [0x09, 0x00] = .error (.short 1 2) := ⟨rfl, rfl, rfl⟩
theorem test_witness_OperandModelDecodes :
    (65531#16).toNat ≤ 65531 ∧ (65532#16).toNat = 65532 + (0 : Fin 4).val ∧
    (65535#16).toNat = 65532 + (3 : Fin 4).val := by decide
theorem test_witness_StreamFetchesAreMemReads :
    (3 + 1 > (tight 0 [1, 2, 3]).progMem) ∧ ¬(2 + 1 > (tight 0 [1, 2, 3]).progMem) ∧
    (2 + 2 > (tight 0 [1, 2, 3]).progMem) ∧ ¬(1 + 2 > (tight 0 [1, 2, 3]).progMem) := by decide
theorem test_witness_StepRunsTheDecodedInstruction : (tight 4 [0x09, 0x04, 0x00, 0x77]).ready 4 ∧
    decode ((tight 4 [0x09, 0x04, 0x00, 0x77]).stream 4) = .ok (.jump (.lit 4), [0x77]) := ⟨by decide, rfl⟩
theorem test_witness_StoredInstructionRuns : (tight 4 [0x09, 0x04, 0x00]).ready 4 ∧ (Instr.jump (.lit 4)).wf = true ∧
    (tight 4 [0x09, 0x04, 0x00]).holds 4 (encode (.jump (.lit 4))) := by decide
theorem test_witness_FetchFaultIsPrecise : (tight 4 [0x09, 0x04]).ready 4 ∧
    decode ((tight 4 [0x09, 0x04]).stream 4) = .error (.short 1 2) ∧ 4 ≤ (tight 4 [0x09, 0x04]).progMem :=
  ⟨by decide, rfl, by decide⟩
theorem test_witness_JumpOutOfTheStoreFaultsOneStepLater : (tight 4 [0x09, 0x07, 0x00]).ready 4 ∧
    (Operand.lit 7).wf = true ∧ (tight 4 [0x09, 0x07, 0x00]).holds 4 (encode (.jump (.lit 7))) ∧
    (tight 4 [0x09, 0x07, 0x00]).progMem ≤ ((tight 4 [0x09, 0x07, 0x00]).value (.lit 7)).toNat := by decide
theorem test_witness_ScheduledTurnsAreTaken :
    { tight 4 [0x0B] with schedule := [.input .wake] }.schedule = .input .wake :: [] ∧
    { tight 4 [0x0B] with schedule := [.loader 0] }.schedule = .loader 0 :: [] ∧
    { tight 4 [0x0B] with schedule := [.interp] }.schedule = .interp :: [] ∧
    decode ({ tight 4 [0x0B] with schedule := [.interp] }.stream 4) = .ok (.ledClear, []) ∧
    { tight 4 [0x09, 0x04] with schedule := [.interp, .input .reset] }.schedule = .interp :: [.input .reset] ∧
    decode ({ tight 4 [0x09, 0x04] with schedule := [.interp, .input .reset] }.stream 4) = .error (.short 1 2) :=
  ⟨rfl, rfl, rfl, rfl, rfl, rfl⟩
theorem test_witness_NoInstructionOutsideRunning : State.reset.mode ≠ .running ∧ State.reset.schedule = [] ∧
    { tight 4 [0x0B] with mode := .waitSleep, schedule := [.interp, .input .wake] }.mode ≠ .running ∧
    { tight 4 [0x0B] with mode := .waitSleep, schedule := [.interp, .input .wake] }.schedule =
      .interp :: [.input .wake] := by decide

theorem test_witness_ExitHalts : (tight 4 [0x00]).pc = .addr 4 ∧ Met [0x00] ∧ Met [] ∧
    ∃ t, exec .exit (tight 4 [0x00]) = .next t ∧ t.mode = .halted := ⟨rfl, by decide, by decide, _, rfl, rfl⟩
theorem test_witness_PrintEmitsStringAndRegisters : (tight 4 [0x01, 0x41, 0x00]).pc = .addr 4 ∧
    0#8 ∉ ([] : List Byte) ∧ Met [0x01, 0x00] ∧ Met [0x01] ∧ 0#8 ∉ [(0x41 : Byte)] ∧ Met [0x01, 0x41, 0x00] ∧
    Met [0x01, 0x41] ∧ Met [] := by decide
theorem test_witness_SetAssignsTheRegister : (tight 4 [0x02, 0x03, 0xFC, 0xFF]).pc = .addr 4 ∧ (3#8).toNat < 4 ∧
    4 ≤ (4#8).toNat ∧ Met [0x02, 0x03, 0xFC, 0xFF] ∧ Met [0x02] ∧ Met [0x02, 0x03] ∧ Met [0x02, 0x03, 0xFC] := by decide
theorem test_witness_AddWrapsModulo65536 : (tight 4 [0x03, 0x03, 0xFC, 0xFF]).pc = .addr 4 ∧ (3#8).toNat < 4 ∧
    4 ≤ (4#8).toNat ∧ Met [0x03, 0x03, 0xFC, 0xFF] ∧ Met [0x03] ∧ Met [0x03, 0x03] ∧ Met [0x03, 0x03, 0xFC] := by decide
theorem test_witness_SubWrapsModulo65536 : (tight 4 [0x04, 0x03, 0xFC, 0xFF]).pc = .addr 4 ∧ (3#8).toNat < 4 ∧
    4 ≤ (4#8).toNat ∧ Met [0x04, 0x03, 0xFC, 0xFF] ∧ Met [0x04] ∧ Met [0x04, 0x03] ∧ Met [0x04, 0x03, 0xFC] := by decide
theorem test_witness_CmpComparesUnsigned : (tight 4 [0x05, 0x3D, 0xFB, 0xFF, 0xFC, 0xFF]).pc = .addr 4 ∧
    Met [0x05, 0x3D, 0xFB, 0xFF, 0xFC, 0xFF] ∧ Met [0x05, 0x3E, 0xFB, 0xFF, 0xFC, 0xFF] ∧
    Met [0x05, 0x3C, 0xFB, 0xFF, 0xFC, 0xFF] ∧ Met [0x05, 0x21, 0xFB, 0xFF, 0xFC, 0xFF] ∧ Met [0x05] ∧
    Met [0x05, 0x3D] ∧ Met [0x05, 0x3D, 0xFB] ∧ Met [0x05, 0x3D, 0xFB, 0xFF] ∧
    Met [0x05, 0x3D, 0xFB, 0xFF, 0xFC] := by decide
theorem test_witness_CmpUnknownOpKeepsTheFlag : (0x3F : Byte) ≠ 0x3D ∧ (0x3F : Byte) ≠ 0x3E ∧ (0x3F : Byte) ≠ 0x3C ∧
    (0x3F : Byte) ≠ 0x21 ∧ (tight 4 [0x05, 0x3F, 0xFB, 0xFF, 0xFC, 0xFF]).pc = .addr 4 ∧
    Met [0x05, 0x3F, 0xFB, 0xFF, 0xFC, 0xFF] := by decide
theorem test_witness_CmpzTestsForZero : (tight 4 [0x06, 0xFF, 0xFF]).pc = .addr 4 ∧ Met [0x06, 0xFF, 0xFF] ∧
    Met [0x06] ∧ Met [0x06, 0xFF] := by decide
theorem test_witness_CmpnzTestsForNonzero : (tight 4 [0x07, 0xFF, 0xFF]).pc = .addr 4 ∧ Met [0x07, 0xFF, 0xFF] ∧
    Met [0x07] ∧ Met [0x07, 0xFF] := by decide
theorem test_witness_SleepSuspends : (tight 4 [0x08, 0xFF, 0xFF]).pc = .addr 4 ∧ Met [0x08, 0xFF, 0xFF] ∧
    Met [0x08] ∧ Met [0x08, 0xFF] := by decide
theorem test_witness_JumpSetsThePc : (tight 4 [0x09, 0xFF, 0xFF]).pc = .addr 4 ∧ Met [0x09, 0xFF, 0xFF] ∧
    Met [0x09] ∧ Met [0x09, 0xFF] := by decide
theorem test_witness_JumpCondFollowsTheFlag : (tight 4 [0x0A, 0xFF, 0xFF]).pc = .addr 4 ∧
    (tight 4 [0x0A, 0xFF, 0xFF]).flag = false ∧ { tight 4 [0x0A, 0xFF, 0xFF] with flag := true }.flag = true ∧
    Met [0x0A, 0xFF, 0xFF] ∧ Met [0x0A] ∧ Met [0x0A, 0xFF] := by decide
theorem test_witness_LedClearEmits : (tight 4 [0x0B]).pc = .addr 4 ∧ Met [0x0B] := by decide
theorem test_witness_LedSetNSetsThePixelCount : (tight 4 [0x0C, 0xFF, 0xFF]).pc = .addr 4 ∧ Met [0x0C, 0xFF, 0xFF] ∧
    Met [0x0C] ∧ Met [0x0C, 0xFF] := by decide
theorem test_witness_LedSetPixelEmits :
    (tight 4 [0x0D, 0x00, 0x00, 0xFB, 0xFF, 0xFC, 0xFF, 0xFF, 0xFF]).pc = .addr 4 ∧
    (∀ k ∈ List.range 10, Met ([0x0D, 0x00, 0x00, 0xFB, 0xFF, 0xFC, 0xFF, 0xFF, 0xFF].take k)) := by decide
theorem test_witness_LedSyncWaits : (tight 4 [0x0E]).pc = .addr 4 ∧ Met [0x0E] ∧
    { tight 4 [] with mode := .waitSync, schedule := [.interp] }.mode = .waitSync ∧
    { tight 4 [] with mode := .waitSync, schedule := [.interp] }.schedule = .interp :: [] := by decide
theorem test_witness_LedBlurClampsTheRadius : (tight 4 [0x0F, 0xFF, 0xFF]).pc = .addr 4 ∧ Met [0x0F, 0xFF, 0xFF] ∧
    Met [0x0F] ∧ Met [0x0F, 0xFF] := by decide
theorem test_witness_LedFillSetsEveryActivePixel :
    (tight 4 [0x10, 0x00, 0x00, 0xFB, 0xFF, 0xFF, 0xFF]).pc = .addr 4 ∧
    (∀ k ∈ List.range 8, Met ([0x10, 0x00, 0x00, 0xFB, 0xFF, 0xFF, 0xFF].take k)) := by decide
theorem test_witness_UnknownOpcodeOnlyAdvances : (tight 4 [0x11]).pc = .addr 4 ∧ 0x11 ≤ (0x11#8).toNat ∧
    Met [0x11] ∧ 0x11 ≤ (0xFF#8).toNat ∧ Met [0xFF] := by decide

theorem test_witness_InstructionsLeaveMemoryAlone : ∃ t, exec .exit (tight 4 [0x00]) = .next t := ⟨_, rfl⟩
theorem test_witness_InstructionsDoNotReadTheStore : ∃ t, exec (.add 0 (.reg 0)) (tight 4 [0x00]) = .next t := ⟨_, rfl⟩
theorem test_witness_RegistersChangeOnlyByTheirIndex :
    ∃ t, exec (.set 3 (.lit 7)) (tight 4 []) = .next t ∧ t.x[(3 : Fin 4).val] ≠ (tight 4 []).x[(3 : Fin 4).val] :=
  ⟨_, rfl, by decide⟩
theorem test_witness_FlagAndPixelCountWriters :
    (∃ t, exec (.cmpz (.lit 0)) (tight 4 []) = .next t ∧ t.flag ≠ (tight 4 []).flag) ∧
    ∃ t, exec (.ledSetN (.lit 5)) (tight 4 []) = .next t ∧ t.npix ≠ (tight 4 []).npix :=
  ⟨⟨_, rfl, by decide⟩, _, rfl, by decide⟩
theorem test_witness_OutputModeAndFaultWriters :
    (∃ t, exec .ledSync (tight 4 []) = .next t ∧ t.out ≠ (tight 4 []).out ∧ t.mode ≠ (tight 4 []).mode) ∧
    ∃ t, exec (.sub 4 (.lit 0)) (tight 4 []) = .next t ∧ t.fault ≠ (tight 4 []).fault :=
  ⟨⟨_, rfl, by decide, by decide⟩, _, rfl, by decide⟩
theorem test_witness_PcGoesPastTheInstruction :
    (tight 4 []).pc = .addr 4 ∧ (tight 4 []).flag = false ∧ (∀ a, Instr.jumpCond (.lit 9) ≠ .jump a) ∧
    ∃ t, exec (.jumpCond (.lit 9)) (tight 4 []) = .next t := ⟨rfl, rfl, nofun, _, rfl⟩

theorem test_witness_FaultEntryKeepsTheRest :
    (∃ t, step (tight 4 [0x09]) = .next t ∧ (tight 4 [0x09]).fault = none ∧
      t.fault = some (.fetchOutOfBounds 4 5 2)) ∧
    (∃ t, step (tight 4 [0x02, 0x04, 0x00, 0x00]) = .next t ∧ t.fault = some (.badRegIndex 4 4)) ∧
    ∃ t, step (loading [0x07]) = .next t ∧ (loading [0x07]).fault = none ∧ t.fault = some (.loaderTooShort 1) :=
  ⟨⟨_, rfl, rfl, rfl⟩, ⟨_, rfl, rfl⟩, _, rfl, rfl, rfl⟩
theorem test_witness_FaultedIsLeftOnlyByReset :
    { tight 4 [] with mode := .faulted, fault := some (.loaderTooShort 0) }.mode = .faulted ∧
    (∀ later, { tight 4 [] with schedule := [.input .run] }.schedule ≠ .input .reset :: later) ∧
    { tight 4 [] with schedule := [.input .reset] }.schedule = .input .reset :: [] := ⟨rfl, nofun, rfl⟩
theorem test_witness_ResetEventReinitialises :
    { tight 4 [0x00] with schedule := [.input .reset, .interp] }.schedule = .input .reset :: [.interp] := rfl
theorem test_witness_ResetStateValues : State.reset.progMem = 512 := rfl
theorem test_witness_RunEventByMode :
    (State.resetWith 512 .locked [.input .run]).schedule = .input .run :: [] ∧
    (State.resetWith 512 .locked [.input .run]).mode = .unstarted ∧
    { tight 4 [] with mode := .halted, schedule := [.input .run] }.mode = .halted ∧
    { tight 4 [] with mode := .waitSync, schedule := [.input .run] }.mode ≠ .unstarted ∧
    { tight 4 [] with mode := .waitSync, schedule := [.input .run] }.mode ≠ .halted := by decide
theorem test_witness_CompletionEventsEndTheirWait :
    { tight 4 [] with mode := .waitSleep, schedule := [.input .wake] }.schedule = .input .wake :: [] ∧
    { tight 4 [] with mode := .waitSleep, schedule := [.input .wake] }.mode = .waitSleep ∧
    { tight 4 [] with mode := .waitSync, schedule := [.input .wake] }.mode ≠ .waitSleep ∧
    { tight 4 [] with mode := .waitSync, schedule := [.input .syncDone] }.schedule = .input .syncDone :: [] ∧
    { tight 4 [] with mode := .waitSync, schedule := [.input .syncDone] }.mode = .waitSync ∧
    { tight 4 [] with mode := .running, schedule := [.input .syncDone] }.mode ≠ .waitSync := by decide
theorem test_witness_RunResumesAfterExit :
    (tight 4 [0x00]).mode = .running ∧ (tight 4 [0x00]).pc = .addr 4 ∧ (tight 4 [0x00]).arb = .locked ∧
    { tight 4 [0x00] with schedule := [.interp, .input .run] }.schedule = .interp :: .input .run :: [] ∧
    { tight 4 [0x00] with schedule := [.interp, .input .run] }.holds 4 (encode .exit) := by decide
theorem test_witness_InputsDoNotRedirectTheProgram :
    (State.resetWith 512 .locked [.input .run]).schedule = .input .run :: [] ∧ Turn.input .run ≠ .interp ∧
    Turn.input .run ≠ .input .reset ∧ ∃ t, step (State.resetWith 512 .locked [.input .run]) = .next t :=
  ⟨rfl, by decide, by decide, _, rfl⟩

/-- Every clause of the statement about chunks, at the bounds: lengths 1, 2, 256 and 257, and a payload that ends at
the end of the store or one byte behind it. -/
theorem test_witness_ApplyChunk :
    (loading [0x07]).schedule = .input (.chunk [0x07]) :: [] ∧ (loading [0x07]).mode ≠ .faulted ∧
    (loading [0x07]).arb = .locked ∧ (loading [0x07]).pending = [] ∧ [(0x07 : Byte)].length < 2 ∧
    ({ loading [0x07] with arb := .racy }.arb = .racy ∧ { loading [0x07] with arb := .racy }.pending = []) ∧
    (∀ bytes : List Byte, bytes.length = 257 → bytes.length > 256) ∧ (List.replicate 257 (0 : Byte)).length = 257 ∧
    (2 ≤ [(0x00 : Byte), 0x02].length ∧ (0x00#8).toNat + 256 * (0x02#8).toNat + (2 - 2) ≤ (loading []).progMem) ∧
    (2 ≤ [(0x01 : Byte), 0x02].length ∧ (0x01#8).toNat + 256 * (0x02#8).toNat + (2 - 2) > (loading []).progMem) ∧
    ((List.replicate 256 (1 : Byte)).length = 256 ∧
      (0x01#8).toNat + 256 * (0x01#8).toNat + (256 - 2) ≤ (loading []).progMem) :=
  ⟨rfl, by decide, rfl, rfl, by decide, ⟨rfl, rfl⟩, fun _ h => by omega, List.length_replicate, by decide, by decide,
    List.length_replicate, by decide⟩
theorem test_witness_ChunkTwiceIsChunkOnce :
    (State.resetWith 512 .locked [.input (.chunk [0, 0, 1]), .input (.chunk [0, 0, 1])]).schedule =
      .input (.chunk [0, 0, 1]) :: .input (.chunk [0, 0, 1]) :: [] ∧
    (State.resetWith 512 .locked []).arb = .locked ∧ (State.resetWith 512 .locked []).pending = [] := by decide
theorem test_witness_OnlyTheLoaderWritesTheStore :
    ∃ t, step (loading [0xFE, 0x01, 0xAA]) = .next t ∧ t.mem.read 510 ≠ (loading [0xFE, 0x01, 0xAA]).mem.read 510 :=
  ⟨_, rfl, by decide⟩
theorem test_witness_ChunkIsSeenByTheNextFetch :
    (tight 4 [0x11]).mode = .running ∧ (tight 4 [0x11]).pc = .addr 4 ∧ (tight 4 [0x11]).arb = .locked ∧
    (tight 4 [0x11]).pending = [] ∧ Instr.exit.wf = true ∧
    { tight 4 [0x11] with schedule := [.input (.chunk (4 :: 0 :: encode .exit))] }.schedule =
      [.input (.chunk (4 :: 0 :: encode .exit))] ∧
    (encode .exit).length ≤ 254 ∧ (4#8).toNat + 256 * (0#8).toNat = 4 ∧
    4 + (encode .exit).length ≤ (tight 4 [0x11]).progMem := by decide

/-- A block under `racy` with two bytes still to write. -/
def halfWritten (schedule : List Turn) : State :=
  { State.resetWith 512 .racy schedule with pending := [(0, 0x09), (1, 0x05)] }

theorem test_witness_RacyLoaderWritesByteByByte :
    (State.resetWith 512 .racy [.input (.chunk [0, 0, 1])]).schedule = .input (.chunk [0, 0, 1]) :: [] ∧
    (State.resetWith 512 .racy []).mode ≠ .faulted ∧ (State.resetWith 512 .racy []).arb = .racy ∧
    (State.resetWith 512 .racy []).pending = [] ∧ 2 ≤ [(0 : Byte), 0, 1].length ∧ [(0 : Byte), 0, 1].length ≤ 256 ∧
    (0#8).toNat + 256 * (0#8).toNat + (3 - 2) ≤ 512 ∧
    (halfWritten [.loader 1]).schedule = .loader 1 :: [] ∧ (halfWritten [.loader 1]).mode ≠ .faulted ∧
    (halfWritten [.loader 1]).pending[1]? = some (1, 0x05) ∧
    (halfWritten [.loader 2]).schedule = .loader 2 :: [] ∧ (halfWritten [.loader 2]).pending[2]? = none ∧
    (halfWritten [.input (.chunk [])]).schedule = .input (.chunk []) :: [] ∧
    (halfWritten [.input (.chunk [])]).mode ≠ .faulted ∧
    (halfWritten [.input (.chunk [])]).pending = (0, 0x09) :: [(1, 0x05)] := by decide
theorem test_witness_RacyBytesAreNeverInvented :
    (halfWritten [.loader 1]).arb = .racy ∧ (∃ t, step (halfWritten [.loader 1]) = .next t) ∧
    (∀ later, (halfWritten [.loader 1]).schedule ≠ .input .reset :: later) := ⟨rfl, ⟨_, rfl⟩, nofun⟩
/-- A racy Interpreter with these bytes of the instruction at 4 fetched, the Loader's turn after its own. -/
def fetched (store bytes : List Byte) : State :=
  { tight 4 store with
    arb := .racy, fetching := some ⟨4, bytes⟩, pc := .addr (4 + fieldsDone bytes), schedule := [.interp, .loader 0] }

/-- The byte that comes next is the one in the store at the time of the action, and `pc` passes a field once all of it is
read (20_memory.md rules R42 and R45, an operand whose low byte is old and whose high byte is new). -/
theorem test_racy_action_reads_one_byte :
    (after (fetched [0x09, 0xAA, 0xBB] [0x09, 0x11])).map (fun t => (t.fetching, t.pc, t.schedule)) =
      some (some ⟨4, [0x09, 0x11, 0xBB]⟩, .addr 7, [.loader 0]) := by decide

/-- One action of the byte-by-byte Interpreter: a byte that is read, an instruction that is executed, a field that does
not fit, and the first byte, with nothing fetched yet. -/
theorem test_witness_RacyUndisturbedIsLocked_action :
    (fetched [0x09, 0xAA, 0xBB] [0x09]).mode = .running ∧ (fetched [0x09, 0xAA, 0xBB] [0x09]).pc = .addr 5 ∧
    (fetched [0x09, 0xAA, 0xBB] [0x09]).arb = .racy ∧
    (fetched [0x09, 0xAA, 0xBB] [0x09]).schedule = .interp :: [.loader 0] ∧
    (fetched [0x09, 0xAA, 0xBB] [0x09]).fetching = some ⟨4, [0x09]⟩ ∧
    decode [0x09] = .error (.short 1 2) ∧ 4 + 1 + 2 ≤ (fetched [0x09, 0xAA, 0xBB] [0x09]).progMem ∧
    4 + 1 + 2 > (fetched [0x09, 0xAA] [0x09]).progMem ∧ decode [0x0B] = .ok (.ledClear, []) ∧
    { fetched [0x0B] [] with fetching := none }.fetching = none ∧ decode [] = .error (.short 0 1) :=
  ⟨rfl, rfl, rfl, rfl, rfl, rfl, by decide, by decide, rfl, rfl, rfl⟩
theorem test_witness_RacyUndisturbedIsLocked :
    { tight 4 [0x09, 0xFF, 0xFF] with arb := .racy }.mode = .running ∧
    { tight 4 [0x09, 0xFF, 0xFF] with arb := .racy }.pc = .addr 4 ∧
    { tight 4 [0x09, 0xFF, 0xFF] with arb := .racy }.arb = .racy ∧
    { tight 4 [0x09, 0xFF, 0xFF] with arb := .racy }.schedule = [] ∧
    { tight 4 [0x09, 0xFF, 0xFF] with arb := .racy }.fetching = none ∧ (Instr.jump (.reg 3)).wf = true ∧
    { tight 4 [0x09, 0xFF, 0xFF] with arb := .racy }.holds 4 (encode (.jump (.reg 3))) := by decide

theorem test_witness_ParametersNeverChange : ∃ t, step (tight 4 [0x0B]) = .next t := ⟨_, rfl⟩
theorem test_witness_OutputOnlyGrows : ∃ t, step (tight 4 [0x0B]) = .next t ∧ t.out ≠ (tight 4 [0x0B]).out :=
  ⟨_, rfl, by decide⟩
theorem test_witness_ResetSatisfiesInvariant : 1 ≤ 65536 ∧ 65536 ≤ 65536 := by decide

/-- A running state that meets the invariant, whatever its one byte and whatever is due. -/
theorem tight_inv (b : Byte) (schedule : List Turn) : { tight 4 [b] with schedule := schedule }.Inv := by
  have hcap : Config.progMemMin ≤ 5 ∧ 5 ≤ Config.progMemMax := by decide
  refine ⟨hcap, rfl, ?_, nofun, nofun, ⟨nofun, fun h => absurd rfl h⟩, ?_, ?_, fun _ => ⟨rfl, rfl⟩, nofun,
    fun _ => ⟨rfl, rfl⟩, nofun, nofun⟩
  · intro c hc
    obtain rfl := List.mem_singleton.1 hc
    exact Nat.lt_succ_self 4
  · rintro a ⟨⟩
    decide
  · simp [tight, State.resetWith, clearedStage]
theorem test_witness_StepKeepsInvariant : (tight 4 [0x0B]).Inv ∧ ∃ t, step (tight 4 [0x0B]) = .next t :=
  ⟨tight_inv 0x0B [], _, rfl⟩
theorem test_witness_StepAlwaysAnswers : (tight 4 [0x0B]).Inv := tight_inv 0x0B []

/-! ### The end of a run -/

/-- A halted Interpreter at 4 with one event due. -/
def haltedWith (e : Input) : State := { tight 4 [0x00] with mode := .halted, schedule := [.input e] }

/-- Rule R132: an EXIT is a normal end and a fetch fault is a fault; a Loader fault ends a waiting run, and ends none in
Unstarted (vector K6) or after a normal end. -/
theorem test_runEnd :
    (after (tight 4 [0x00])).bind (tight 4 [0x00]).runEnd = some .normal ∧
    (after (tight 4 [])).bind (tight 4 []).runEnd = some .fault ∧
    (after { tight 4 [] with mode := .waitSync, schedule := [.input (.chunk [0x07])] }).bind
      { tight 4 [] with mode := .waitSync, schedule := [.input (.chunk [0x07])] }.runEnd = some .fault ∧
    (after (loading [0x07])).map (·.mode) = some .faulted ∧
    (after (loading [0x07])).bind (loading [0x07]).runEnd = none ∧
    (after (haltedWith (.chunk [0x07]))).map (·.mode) = some .faulted ∧
    (after (haltedWith (.chunk [0x07]))).bind (haltedWith (.chunk [0x07])).runEnd = none := by decide

/-- The pixels of the first frame of program P4 (spec/95_test_vectors.md), and one of them set to black. -/
theorem test_litAfter_P4 :
    litAfter [] [.displaySetPixelCount 8, .displayClear, .displaySetPixel 0 255 0 0, .displaySetPixel 7 0 0 255] =
      [0, 7] ∧
    litAfter [] [.displaySetPixel 0 255 0 0, .displaySetPixel 7 0 0 255, .displaySetPixel 0 0 0 0] = [7] ∧
    litAfter [] [.displaySetPixel 0 255 0 0, .displayClear] = [] := by decide

theorem test_witness_RunStartsOnlyByTheRunEvent :
    (∃ t, StartsRun (State.resetWith 512 .locked [.input .run]) t ∧ t.mode.inRun = true) ∧
    (∃ t, StartsRun (haltedWith .run) t ∧ t.mode.inRun = true) ∧
    (haltedWith .run).mode.inRun = false ∧ (State.resetWith 512 .locked [.input .run]).mode.inRun = false :=
  ⟨⟨_, ⟨.inl rfl, ⟨[], rfl⟩, rfl⟩, rfl⟩, ⟨_, ⟨.inr rfl, ⟨[], rfl⟩, rfl⟩, rfl⟩, rfl, rfl⟩
theorem test_witness_RunEndsByExitOrFault :
    (∃ t, (tight 4 [0x00]).Inv ∧ step (tight 4 [0x00]) = .next t ∧ (tight 4 [0x00]).runEnd t = some .normal) ∧
    (∃ t, (tight 4 [0x01]).Inv ∧ step (tight 4 [0x01]) = .next t ∧ (tight 4 [0x01]).runEnd t = some .fault) ∧
    (haltedWith .run).mode = .halted ∧ (loading []).mode = .unstarted :=
  ⟨⟨_, tight_inv 0x00 [], rfl, rfl⟩, ⟨_, tight_inv 0x01 [], rfl, rfl⟩, rfl, rfl⟩
/-- The same clause under `racy`: an EXIT whose one byte has been fetched. -/
def fetchedExit : State := { tight 4 [0x00] with arb := .racy, fetching := some ⟨4, [0x00]⟩, pc := .addr 5 }
theorem test_witness_RunEndsByExitOrFault_racy :
    fetchedExit.Inv ∧ fetchedExit.arb = .racy ∧
    ∃ t, step fetchedExit = .next t ∧ fetchedExit.runEnd t = some .normal := by
  obtain ⟨h1, h2, h3, -, -, h6, -, h8, h9, h10, -, -, h13⟩ := tight_inv 0x00 []
  refine ⟨⟨h1, h2, h3, nofun, nofun, h6, ?_, h8, h9, h10, nofun, ?_, h13⟩, rfl, _, rfl, rfl⟩
  · rintro a ⟨⟩
    decide
  · rintro f ⟨⟩
    exact ⟨rfl, rfl, Nat.le_refl 5⟩
theorem test_witness_RunEndsInExactlyOneWay :
    ((tight 4 [0x00]).Inv ∧ (tight 4 [0x00]).mode.inRun = true ∧ ∃ t, RunEndsIn (tight 4 [0x00]) .normal t) ∧
    ((tight 4 [0x01]).Inv ∧ (tight 4 [0x01]).mode.inRun = true ∧ ∃ t, RunEndsIn (tight 4 [0x01]) .fault t) ∧
    ({ tight 4 [0x00] with schedule := [.input .reset] }.Inv ∧
      RunIsCutOff { tight 4 [0x00] with schedule := [.input .reset] }) :=
  ⟨⟨tight_inv 0x00 [], rfl, _, _, .start, rfl, rfl⟩, ⟨tight_inv 0x01 [], rfl, _, _, .start, rfl, rfl⟩,
    tight_inv 0x00 _, _, [], .start, rfl⟩

end Sys2Proof.Tests
end

section
/-! The Operand Model as a function of the register file (30_encoding.md rules R53, R54). -/

namespace Sys2Proof.Machine

/-- The raw values of registers follow the largest literal (rule R53's table). -/
@[simp] theorem raw_reg_toNat (r : Fin Config.numRegs) : (Operand.reg r).raw.toNat = 65532 + r.val := by
  revert r
  decide

/-- Decoding the raw value of a well-formed operand gives that operand's value: the guard of rule R54 does not fail. -/
theorem decodeOperand_raw (s : State) {a : Operand} (ha : a.wf = true) :
    s.decodeOperand a.raw = some (s.value a) := by
  rw [State.decodeOperand, Operand.ofRaw_raw ha, Option.map_some]

/-- Settles O5: each raw value is the encoding of one well-formed operand, a literal up to 65531 and a register above,
and decoding that encoding gives the operand's value. -/
theorem operandModelDecodes : Obligations.OperandModelDecodes := by
  intro s raw
  constructor
  · intro hlit
    have hwf : (Operand.lit raw).wf = true := decide_eq_true hlit
    exact decodeOperand_raw s hwf
  · intro r hraw
    have hreg : raw = (Operand.reg r).raw := BitVec.eq_of_toNat_eq (hraw.trans (raw_reg_toNat r).symm)
    rw [hreg]
    exact decodeOperand_raw s rfl

end Sys2Proof.Machine
end

section
/-! From the bytes at `pc` to the step: how the shapes `StepRuns` and `StepFaults` follow from what the decoder answers
(40_exit_print.md rule R70, 60_exceptions.md rule R102). -/

namespace Sys2Proof.Machine

@[simp] theorem decode_nil : decode [] = .error (.short 0 1) := rfl

/-- An assigned opcode byte leaves the decoding to the fields behind it (30_encoding.md rules R56, R62). -/
@[simp] theorem decode_opcode (o : Opcode) (rest : List Byte) : decode (o.byte :: rest) = decodeFields o rest := by
  rw [decode, take8_cons]
  simp only [Opcode.ofByte_byte]

/-- The step of a ready Interpreter is one whole instruction (20_memory.md rule R42). -/
theorem step_of_ready {s : State} {pc0 : Nat} (h : s.ready pc0) : step s = s.lockedMove pc0 := by
  obtain ⟨hmode, hpc, harb, hsched⟩ := h
  rw [step_of_nil hsched, State.interpMove_locked hmode hpc harb]

theorem State.lockedMove_of_decode_ok {s : State} {pc0 : Nat} {i : Instr} {rest : List Byte}
    (h : decode (s.stream pc0) = .ok (i, rest)) : s.lockedMove pc0 = exec i s := by
  simp only [State.lockedMove, h]

theorem State.lockedMove_of_decode_error {s : State} {pc0 : Nat} {e : DecodeError}
    (h : decode (s.stream pc0) = .error e) : s.lockedMove pc0 = .next (s.fetchFault pc0 e) := by
  simp only [State.lockedMove, h]

/-- Bytes that decode to `i`, whatever lies behind them, run `i`. -/
theorem stepRuns_of_decode {bytes : List Byte} {i : Instr} (h : ∀ rest, decode (bytes ++ rest) = .ok (i, rest)) :
    StepRuns bytes i := by
  intro s pc0 rest hready hstream
  rw [step_of_ready hready]
  exact State.lockedMove_of_decode_ok (hstream ▸ h rest)

/-- Bytes in which the decoder misses a field fault at that field where the store ends behind them. -/
theorem stepFaults_of_decode {bytes : List Byte} {off n : Nat} (h : decode bytes = .error (.short off n)) :
    StepFaults bytes off n := by
  intro s pc0 hready hstream
  rw [step_of_ready hready, State.lockedMove_of_decode_error (hstream ▸ h)]
  rfl

/-- The opcode fetch of every instruction faults at the end of the store. -/
theorem stepFaults_opcode : StepFaults [] 0 1 := stepFaults_of_decode decode_nil

end Sys2Proof.Machine
end

section
/-! What an instruction makes of `mode` (10_state.md rule R15), and EXIT (40_exit_print.md rule R71). -/

namespace Sys2Proof.Machine

/-- An instruction whose effect sets one mode, wherever it stands, leaves the block in that mode. -/
theorem State.atPc_mode {s t : State} {body : Nat → State} {m : Mode} (h : s.atPc body = .next t)
    (hbody : ∀ pc0, (body pc0).mode = m) : t.mode = m := by
  obtain ⟨pc0, -, rfl⟩ := State.atPc_eq_next h
  exact hbody pc0

/-- SET, ADD and SUB keep the mode or fault. -/
theorem State.updateReg_mode {s t : State} {idx : Byte} {f : Word → Word} (h : s.updateReg idx f = .next t) :
    t.mode = s.mode ∨ t.mode = .faulted := by
  obtain ⟨pc0, -, ⟨hi, rfl⟩ | ⟨-, rfl⟩⟩ := State.updateReg_eq_next h
  · exact .inl rfl
  · exact .inr rfl

/-- The modes an instruction can leave the block in: the one it found, `Faulted`, or the one that EXIT, SLEEP or
LED_SYNC enters. -/
theorem exec_mode {i : Instr} {s t : State} (h : exec i s = .next t) :
    t.mode = s.mode ∨ t.mode = .faulted ∨ (i = .exit ∧ t.mode = .halted) ∨
      ((∃ a, i = .sleep a) ∧ t.mode = .waitSleep) ∨ (i = .ledSync ∧ t.mode = .waitSync) := by
  cases i with
  | exit => exact .inr (.inr (.inl ⟨rfl, State.atPc_mode h fun _ => rfl⟩))
  | sleep a => exact .inr (.inr (.inr (.inl ⟨⟨a, rfl⟩, State.atPc_mode h fun _ => rfl⟩)))
  | ledSync => exact .inr (.inr (.inr (.inr ⟨rfl, State.atPc_mode h fun _ => rfl⟩)))
  | set idx a => exact (State.updateReg_mode ((exec_set s idx a).symm.trans h)).imp_right .inl
  | add idx a => exact (State.updateReg_mode ((exec_add s idx a).symm.trans h)).imp_right .inl
  | sub idx a => exact (State.updateReg_mode ((exec_sub s idx a).symm.trans h)).imp_right .inl
  | _ => exact .inl (State.atPc_mode h fun _ => rfl)

/-- No instruction but EXIT halts the run (rule R71). -/
theorem exec_halts {i : Instr} {s t : State} (h : exec i s = .next t) (ht : t.mode = .halted) :
    s.mode = .halted ∨ i = .exit := by
  obtain hkept | hfaulted | ⟨hexit, -⟩ | ⟨-, hsleep⟩ | ⟨-, hsync⟩ := exec_mode h
  · exact .inl (hkept.symm.trans ht)
  · exact Mode.noConfusion (hfaulted.symm.trans ht)
  · exact .inr hexit
  · exact Mode.noConfusion (hsleep.symm.trans ht)
  · exact Mode.noConfusion (hsync.symm.trans ht)

/-- EXIT halts with `pc` behind it and changes nothing else (rule R71). -/
theorem exec_exit_of_pc {s : State} {pc0 : Nat} (hpc : s.pc = .addr pc0) :
    exec .exit s = .next { s with pc := .addr (pc0 + 1), mode := .halted } := by
  rw [exec_exit, State.atPc_addr hpc]
  rfl

/-- Byte 0x00 is a whole EXIT. -/
theorem stepRuns_exit : StepRuns [0x00] .exit := stepRuns_of_decode (decode_opcode .exit)

/-- Settles O13: EXIT's own effect, the modes every other instruction can leave, and the decoding of its one byte. -/
theorem exitHalts : Obligations.ExitHalts :=
  ⟨fun _ _ => exec_exit_of_pc, fun _ _ _ => exec_halts, stepRuns_exit, stepFaults_opcode⟩

end Sys2Proof.Machine
end

section
/-! Format `RO`, the encoding that SET, ADD and SUB share (30_encoding.md rule R52): which bytes run the instruction,
and where each of its three fetches faults (41_register_alu.md rule R79). -/

namespace Sys2Proof.Machine

@[simp] theorem decodeRO_nil (mk : Byte → Operand → Instr) : decodeRO mk [] = .error (.short 1 1) := rfl

@[simp] theorem decodeRO_one (mk : Byte → Operand → Instr) (idx : Byte) :
    decodeRO mk [idx] = .error (.short 2 2) := rfl

@[simp] theorem decodeRO_two (mk : Byte → Operand → Instr) (idx lo : Byte) :
    decodeRO mk [idx, lo] = .error (.short 2 2) := rfl

theorem decodeRO_bytes (mk : Byte → Operand → Instr) (idx : Byte) {lo hi : Byte} {a : Operand}
    (ha : Operand.ofRaw (hi ++ lo) = some a) (rest : List Byte) :
    decodeRO mk (idx :: lo :: hi :: rest) = .ok (mk idx a, rest) := by
  simp only [decodeRO, take8_cons, takeOperand_bytes ha, bind, Except.bind, pure, Except.pure]

/-- The step at an opcode of format `RO`: the instruction where its four bytes stand, and `FetchOutOfBounds` at the
opcode, the index byte or the operand where the store ends before it. -/
theorem step_of_formatRO {o : Opcode} {mk : Byte → Operand → Instr} (ho : ∀ bs, decodeFields o bs = decodeRO mk bs) :
    (∀ (idx lo hi : Byte) (a : Operand), Operand.ofRaw (hi ++ lo) = some a →
      StepRuns [o.byte, idx, lo, hi] (mk idx a)) ∧
    StepFaults [] 0 1 ∧ StepFaults [o.byte] 1 1 ∧
    ∀ idx lo : Byte, StepFaults [o.byte, idx] 2 2 ∧ StepFaults [o.byte, idx, lo] 2 2 := by
  have hdecode (bs : List Byte) : decode (o.byte :: bs) = decodeRO mk bs := (decode_opcode o bs).trans (ho bs)
  refine ⟨fun idx lo hi a ha => stepRuns_of_decode fun rest => ?_, stepFaults_opcode, ?_, fun idx lo => ⟨?_, ?_⟩⟩
  · exact (hdecode _).trans (decodeRO_bytes mk idx ha rest)
  · exact stepFaults_of_decode ((hdecode _).trans (decodeRO_nil mk))
  · exact stepFaults_of_decode ((hdecode _).trans (decodeRO_one mk idx))
  · exact stepFaults_of_decode ((hdecode _).trans (decodeRO_two mk idx lo))

end Sys2Proof.Machine
end

section
/-! SET, ADD and SUB (41_register_alu.md rules R75 to R77): the whole state each leaves, and 16-bit arithmetic as
natural numbers modulo 65536 (00_scope.md rule R5). -/

namespace Sys2Proof.Machine

/-- The whole effect of a register update: a raw index below 4 writes that one register, any other is `BadRegIndex`
with all four bytes fetched and no register written (rule R79). -/
theorem State.updateReg_effect {s : State} {pc0 : Nat} (hpc : s.pc = .addr pc0) (idx : Byte) (f : Word → Word) :
    (∀ h : idx.toNat < 4, s.updateReg idx f = .next { s with
      pc := .addr (pc0 + 4), x := s.x.set idx.toNat (f s.x[idx.toNat]) h }) ∧
    (4 ≤ idx.toNat → s.updateReg idx f = .next { s with
      pc := .addr (pc0 + 4), fault := some (.badRegIndex pc0 idx), mode := .faulted, fetching := none }) :=
  ⟨fun h => State.updateReg_of_lt hpc h f, fun h => State.updateReg_of_ge hpc h f⟩

theorem word_add_eq_mod (v w : Word) : v + w = BitVec.ofNat 16 ((v.toNat + w.toNat) % 65536) := by
  apply BitVec.eq_of_toNat_eq
  rw [BitVec.toNat_add, BitVec.toNat_ofNat]
  omega

/-- Underflow wraps: the difference is taken after one turn of 65536 is added. -/
theorem word_sub_eq_mod (v w : Word) : v - w = BitVec.ofNat 16 ((v.toNat + 65536 - w.toNat) % 65536) := by
  have hw := w.isLt
  apply BitVec.eq_of_toNat_eq
  rw [BitVec.toNat_sub, BitVec.toNat_ofNat]
  omega

/-- ADD as a register update modulo 65536, its operand read in the state before the write. -/
theorem exec_add_eq_mod (s : State) (idx : Byte) (a : Operand) : exec (.add idx a) s =
    s.updateReg idx fun old => BitVec.ofNat 16 ((old.toNat + (s.value a).toNat) % 65536) := by
  simp only [exec_add, word_add_eq_mod]

/-- SUB as a register update modulo 65536, its operand read in the state before the write. -/
theorem exec_sub_eq_mod (s : State) (idx : Byte) (a : Operand) : exec (.sub idx a) s =
    s.updateReg idx fun old => BitVec.ofNat 16 ((old.toNat + 65536 - (s.value a).toNat) % 65536) := by
  simp only [exec_sub, word_sub_eq_mod]

/-- Settles O15: SET is the register update by the operand's value, encoded in format `RO` behind byte 0x02. -/
theorem setAssignsTheRegister : Obligations.SetAssignsTheRegister := by
  refine ⟨fun s pc0 idx a hpc => ?_, step_of_formatRO (o := .set) fun _ => rfl⟩
  rw [exec_set]
  exact State.updateReg_effect hpc idx _

/-- Settles O16: ADD is the register update by the sum modulo 65536, encoded in format `RO` behind byte 0x03. -/
theorem addWrapsModulo65536 : Obligations.AddWrapsModulo65536 := by
  refine ⟨fun s pc0 idx a hpc => ?_, step_of_formatRO (o := .add) fun _ => rfl⟩
  rw [exec_add_eq_mod]
  exact State.updateReg_effect hpc idx _

/-- Settles O17: SUB is the register update by the difference modulo 65536, encoded in format `RO` behind byte 0x04. -/
theorem subWrapsModulo65536 : Obligations.SubWrapsModulo65536 := by
  refine ⟨fun s pc0 idx a hpc => ?_, step_of_formatRO (o := .sub) fun _ => rfl⟩
  rw [exec_sub_eq_mod]
  exact State.updateReg_effect hpc idx _

end Sys2Proof.Machine
end

section
/-! Format `O`, one operand behind the opcode byte, which most instructions share (30_encoding.md rule R52): which bytes
run the instruction, and where each of its two fetches faults. -/

namespace Sys2Proof.Machine

@[simp] theorem decodeO_nil (mk : Operand → Instr) : decodeO mk [] = .error (.short 1 2) := rfl

@[simp] theorem decodeO_one (mk : Operand → Instr) (lo : Byte) : decodeO mk [lo] = .error (.short 1 2) := rfl

theorem decodeO_bytes (mk : Operand → Instr) {lo hi : Byte} {a : Operand} (ha : Operand.ofRaw (hi ++ lo) = some a)
    (rest : List Byte) : decodeO mk (lo :: hi :: rest) = .ok (mk a, rest) := by
  simp only [decodeO, takeOperand_bytes ha, bind, Except.bind, pure, Except.pure]

/-- The step at an opcode of format `O`: the instruction where its three bytes stand, and `FetchOutOfBounds` at the
opcode or at the first byte of the operand where the store ends before the field's last byte. -/
theorem step_of_formatO {o : Opcode} {mk : Operand → Instr} (ho : ∀ bs, decodeFields o bs = decodeO mk bs) :
    (∀ (lo hi : Byte) (a : Operand), Operand.ofRaw (hi ++ lo) = some a → StepRuns [o.byte, lo, hi] (mk a)) ∧
    StepFaults [] 0 1 ∧ StepFaults [o.byte] 1 2 ∧ ∀ lo : Byte, StepFaults [o.byte, lo] 1 2 := by
  have hdecode (bs : List Byte) : decode (o.byte :: bs) = decodeO mk bs := (decode_opcode o bs).trans (ho bs)
  refine ⟨fun lo hi a ha => stepRuns_of_decode fun rest => ?_, stepFaults_opcode, ?_, fun lo => ?_⟩
  · exact (hdecode _).trans (decodeO_bytes mk ha rest)
  · exact stepFaults_of_decode ((hdecode _).trans (decodeO_nil mk))
  · exact stepFaults_of_decode ((hdecode _).trans (decodeO_one mk lo))

end Sys2Proof.Machine
end

section
/-! CMPZ and CMPNZ (42_compare.md rules R81, R82): the flag each leaves, as a Boolean test of the 16-bit value. -/

namespace Sys2Proof.Machine

theorem zeroFlag_eq_beq (v : Word) : zeroFlag v = (v.toNat == 0) := rfl

/-- CMPNZ is CMPZ with the sense inverted (rule R82). -/
theorem nonzeroFlag_eq_not_zeroFlag (v : Word) : nonzeroFlag v = !zeroFlag v := decide_not

theorem nonzeroFlag_eq_bne (v : Word) : nonzeroFlag v = (v.toNat != 0) := by
  rw [nonzeroFlag_eq_not_zeroFlag, zeroFlag_eq_beq, bne]

/-- Settles O20: CMPZ sets the flag to the test for zero, encoded in format `O` behind byte 0x06. -/
theorem cmpzTestsForZero : Obligations.CmpzTestsForZero := by
  refine ⟨fun s pc0 a hpc => ?_, step_of_formatO (o := .cmpz) fun _ => rfl⟩
  rw [exec_cmpz, State.atPc_addr hpc, zeroFlag_eq_beq]
  rfl

/-- Settles O21: CMPNZ sets the flag to the inverted test, encoded in format `O` behind byte 0x07. -/
theorem cmpnzTestsForNonzero : Obligations.CmpnzTestsForNonzero := by
  refine ⟨fun s pc0 a hpc => ?_, step_of_formatO (o := .cmpnz) fun _ => rfl⟩
  rw [exec_cmpnz, State.atPc_addr hpc, nonzeroFlag_eq_bne]
  rfl

end Sys2Proof.Machine
end

section
/-! LED_CLEAR (44_display.md rule R90): one byte, one event, `npix` kept. -/

namespace Sys2Proof.Machine

/-- LED_CLEAR emits `DisplayClear` with `pc` behind it and changes nothing else, `npix` included (rule R90). -/
theorem exec_ledClear_of_pc {s : State} {pc0 : Nat} (hpc : s.pc = .addr pc0) :
    exec .ledClear s = .next { s with pc := .addr (pc0 + 1), out := s.out ++ [.displayClear] } := by
  rw [exec_ledClear, State.atPc_addr hpc]
  rfl

/-- Byte 0x0B is a whole LED_CLEAR. -/
theorem stepRuns_ledClear : StepRuns [0x0B] .ledClear := stepRuns_of_decode (decode_opcode .ledClear)

/-- Settles O25: LED_CLEAR's own effect, and the decoding of its one byte. -/
theorem ledClearEmits : Obligations.LedClearEmits :=
  ⟨fun _ _ => exec_ledClear_of_pc, stepRuns_ledClear, stepFaults_opcode⟩

end Sys2Proof.Machine
end

section
/-! An operand field before other fields, in the formats with several operands (30_encoding.md rules R52, R62): a
missing field is the decoder's error at that field, whatever bytes the operands before it have. -/

namespace Sys2Proof.Machine

/-- Fewer than two bytes are no operand field. -/
theorem takeOperand_short (off : Nat) {tail : List Byte} (h : tail.length < 2) :
    takeOperand off tail = .error (.short off 2) := by
  match tail, h with
  | [], _ => rfl
  | [_], _ => rfl

/-- Two bytes are an operand, whatever they are: the guard of rule R54 does not fail. -/
theorem takeOperand_two_bytes (off : Nat) (lo hi : Byte) (rest : List Byte) :
    ∃ a, takeOperand off (lo :: hi :: rest) = .ok (a, rest) := by
  obtain ⟨a, ha⟩ := Option.isSome_iff_exists.1 (Operand.ofRaw_isSome (hi ++ lo))
  exact ⟨a, takeOperand_bytes ha off rest⟩

section
variable {β : Type} {k : Operand × List Byte → Except DecodeError β} (off : Nat)

/-- Decoding stops at an operand field that is missing. -/
theorem takeOperand_bind_short {tail : List Byte} (h : tail.length < 2) :
    (takeOperand off tail >>= k) = .error (.short off 2) := by
  rw [takeOperand_short off h]
  rfl

/-- Decoding goes past an operand field that is there to the error of the fields behind it. -/
theorem takeOperand_bind_error (lo hi : Byte) {rest : List Byte} {e : DecodeError}
    (h : ∀ a, k (a, rest) = .error e) : (takeOperand off (lo :: hi :: rest) >>= k) = .error e := by
  obtain ⟨a, ha⟩ := takeOperand_two_bytes off lo hi rest
  rw [ha]
  exact h a

end

end Sys2Proof.Machine
end

section
/-! Format `O4` and LED_SET_PIXEL (30_encoding.md rule R52, 44_display.md rule R92): which bytes run the instruction,
where each of its five fetches faults, and its one event. -/

namespace Sys2Proof.Machine

theorem decodeO4_bytes {ilo ihi rlo rhi glo ghi blo bhi : Byte} {i r g b : Operand}
    (hidx : Operand.ofRaw (ihi ++ ilo) = some i) (hr : Operand.ofRaw (rhi ++ rlo) = some r)
    (hg : Operand.ofRaw (ghi ++ glo) = some g) (hb : Operand.ofRaw (bhi ++ blo) = some b) (rest : List Byte) :
    decodeO4 (ilo :: ihi :: rlo :: rhi :: glo :: ghi :: blo :: bhi :: rest) = .ok (.ledSetPixel i r g b, rest) := by
  simp only [decodeO4, takeOperand_bytes hidx, takeOperand_bytes hr, takeOperand_bytes hg, takeOperand_bytes hb,
    bind, Except.bind, pure, Except.pure]

theorem decode_ledSetPixel (bs : List Byte) : decode (0x0D :: bs) = decodeO4 bs := decode_opcode .ledSetPixel bs

section
variable {tail : List Byte} (ilo ihi rlo rhi glo ghi : Byte)

/-- The store ends in the index operand. -/
theorem stepFaults_ledSetPixel_index (h : tail.length < 2) : StepFaults (0x0D :: tail) 1 2 :=
  stepFaults_of_decode <| (decode_ledSetPixel _).trans <| takeOperand_bind_short 1 h

/-- The store ends in the operand r. -/
theorem stepFaults_ledSetPixel_r (h : tail.length < 2) : StepFaults (0x0D :: ilo :: ihi :: tail) 3 2 :=
  stepFaults_of_decode <| (decode_ledSetPixel _).trans <|
    takeOperand_bind_error 1 ilo ihi fun _ => takeOperand_bind_short 3 h

/-- The store ends in the operand g. -/
theorem stepFaults_ledSetPixel_g (h : tail.length < 2) :
    StepFaults (0x0D :: ilo :: ihi :: rlo :: rhi :: tail) 5 2 :=
  stepFaults_of_decode <| (decode_ledSetPixel _).trans <|
    takeOperand_bind_error 1 ilo ihi fun _ => takeOperand_bind_error 3 rlo rhi fun _ => takeOperand_bind_short 5 h

/-- The store ends in the operand b. -/
theorem stepFaults_ledSetPixel_b (h : tail.length < 2) :
    StepFaults (0x0D :: ilo :: ihi :: rlo :: rhi :: glo :: ghi :: tail) 7 2 :=
  stepFaults_of_decode <| (decode_ledSetPixel _).trans <|
    takeOperand_bind_error 1 ilo ihi fun _ => takeOperand_bind_error 3 rlo rhi fun _ =>
      takeOperand_bind_error 5 glo ghi fun _ => takeOperand_bind_short 7 h

end

/-- Byte 0x0D and four operand fields are a whole LED_SET_PIXEL. -/
theorem stepRuns_ledSetPixel {ilo ihi rlo rhi glo ghi blo bhi : Byte} {i r g b : Operand}
    (hidx : Operand.ofRaw (ihi ++ ilo) = some i) (hr : Operand.ofRaw (rhi ++ rlo) = some r)
    (hg : Operand.ofRaw (ghi ++ glo) = some g) (hb : Operand.ofRaw (bhi ++ blo) = some b) :
    StepRuns [0x0D, ilo, ihi, rlo, rhi, glo, ghi, blo, bhi] (.ledSetPixel i r g b) :=
  stepRuns_of_decode fun rest => (decode_ledSetPixel _).trans (decodeO4_bytes hidx hr hg hb rest)

/-- LED_SET_PIXEL emits its four operands modulo 256, index first and then the colours in the order r, g, b, and does
not look at `npix` (rule R92). -/
theorem exec_ledSetPixel_of_pc {s : State} {pc0 : Nat} (hpc : s.pc = .addr pc0) (i r g b : Operand) :
    exec (.ledSetPixel i r g b) s = .next { s with
      pc := .addr (pc0 + 9)
      out := s.out ++ [.displaySetPixel (BitVec.ofNat 8 ((s.value i).toNat % 256))
        (BitVec.ofNat 8 ((s.value r).toNat % 256)) (BitVec.ofNat 8 ((s.value g).toNat % 256))
        (BitVec.ofNat 8 ((s.value b).toNat % 256))] } := by
  rw [exec_ledSetPixel, State.atPc_addr hpc]
  simp only [lowByte_eq]
  rfl

/-- Settles O27: LED_SET_PIXEL's own effect, the decoding of its nine bytes, and for each of its operands the fault
where none or one of the operand's two bytes is in the store. -/
theorem ledSetPixelEmits : Obligations.LedSetPixelEmits := by
  have hnone : ([] : List Byte).length < 2 := Nat.two_pos
  have hone (lo : Byte) : [lo].length < 2 := Nat.one_lt_two
  refine ⟨fun s pc0 i r g b hpc => exec_ledSetPixel_of_pc hpc i r g b,
    fun _ _ _ _ _ _ _ _ _ _ _ _ => stepRuns_ledSetPixel, stepFaults_opcode, stepFaults_ledSetPixel_index hnone, ?_⟩
  intro ilo ihi rlo rhi glo ghi blo
  exact ⟨stepFaults_ledSetPixel_index (hone ilo),
    stepFaults_ledSetPixel_r ilo ihi hnone, stepFaults_ledSetPixel_r ilo ihi (hone rlo),
    stepFaults_ledSetPixel_g ilo ihi rlo rhi hnone, stepFaults_ledSetPixel_g ilo ihi rlo rhi (hone glo),
    stepFaults_ledSetPixel_b ilo ihi rlo rhi glo ghi hnone,
    stepFaults_ledSetPixel_b ilo ihi rlo rhi glo ghi (hone blo)⟩

end Sys2Proof.Machine
end

section
/-! The unknown opcodes (45_unknown_opcode.md rule R98, 30_encoding.md rule R57): one byte each, `pc` moved past it and
nothing else changed. -/

namespace Sys2Proof.Machine

/-- The opcode bytes behind LED_FILL's 0x10 select no instruction (30_encoding.md rules R56, R57). -/
theorem opcode_ofByte_eq_none {opc : Byte} (h : 0x11 ≤ opc.toNat) : Opcode.ofByte opc = none := by
  have hgt : ¬opc.toNat ≤ 0x10 := Nat.not_le_of_gt h
  exact Opcode.ofByte_eq_none_iff.2 (decide_eq_false hgt)

/-- An unknown opcode byte is a whole instruction: no field is fetched behind it (rule R57). -/
theorem decode_unknown {opc : Byte} (h : 0x11 ≤ opc.toNat) (rest : List Byte) :
    decode (opc :: rest) = .ok (.unknown opc, rest) := by
  rw [decode, take8_cons]
  simp only [opcode_ofByte_eq_none h]

/-- UNKNOWN moves `pc` behind its byte and changes nothing else, whatever the byte (rule R98). -/
theorem exec_unknown_of_pc {s : State} {pc0 : Nat} (hpc : s.pc = .addr pc0) (opc : Byte) :
    exec (.unknown opc) s = .next { s with pc := .addr (pc0 + 1) } := by
  rw [exec_unknown, State.atPc_addr hpc]
  rfl

/-- A byte from 0x11 on is a whole UNKNOWN. -/
theorem stepRuns_unknown {opc : Byte} (h : 0x11 ≤ opc.toNat) : StepRuns [opc] (.unknown opc) :=
  stepRuns_of_decode (decode_unknown h)

/-- Settles O31: UNKNOWN's own effect, and the decoding of its one byte, whose fetch is the only one that can fault. -/
theorem unknownOpcodeOnlyAdvances : Obligations.UnknownOpcodeOnlyAdvances :=
  ⟨fun _ _ opc hpc => exec_unknown_of_pc hpc opc, fun _ => stepRuns_unknown, stepFaults_opcode⟩

end Sys2Proof.Machine
end

section
/-! What the decoder's readers have in common (30_encoding.md rules R50 to R52, R62): a reader takes the bytes that
spell its value and no others, and fails only for a field that the given bytes do not hold whole. -/

namespace Sys2Proof

/-- A reader whose fields begin `off` bytes after the opcode byte reads the values that byte strings spell. -/
structure Reads {α : Type} (off : Nat) (p : List Byte → Except DecodeError (α × List Byte))
    (Spells : α → List Byte → Prop) : Prop where
  /-- Bytes that spell a value are read as that value, whatever follows them. -/
  complete : ∀ {a bs}, Spells a bs → ∀ rest, p (bs ++ rest) = .ok (a, rest)
  /-- The bytes that were read spell the value. -/
  sound : ∀ {bs a rest}, p bs = .ok (a, rest) → ∃ own, bs = own ++ rest ∧ Spells a own
  /-- A reader fails only where a field of 1 or 2 bytes is not wholly there. -/
  missing : ∀ {bs e}, p bs = .error e → ∃ o n, e = .short o n ∧ (n = 1 ∨ n = 2) ∧
    o ≤ off + bs.length ∧ off + bs.length < o + n
  /-- The field that is missing is one of the fields of every value the bytes can still grow into. -/
  needed : ∀ {bs more a o n}, p bs = .error (.short o n) → Spells a (bs ++ more) → o + n ≤ off + (bs ++ more).length

section
variable {α β : Type} {off : Nat} {p : List Byte → Except DecodeError (α × List Byte)} {P : α → List Byte → Prop}

theorem Reads.congr (hp : Reads off p P) {Q : α → List Byte → Prop} (h : ∀ a bs, P a bs ↔ Q a bs) : Reads off p Q := by
  have hPQ : P = Q := funext fun a => funext fun bs => propext (h a bs)
  exact hPQ ▸ hp

/-- A reader that takes no byte. -/
theorem Reads.pure (off : Nat) (a : α) :
    Reads off (fun bs => Pure.pure (a, bs)) (fun c bs => c = a ∧ bs = []) where
  complete := by rintro _ _ ⟨rfl, rfl⟩ rest; rfl
  sound := by rintro bs _ _ ⟨⟩; exact ⟨[], rfl, rfl, rfl⟩
  missing := nofun
  needed := nofun

/-- A reader whose value is wrapped up. -/
theorem Reads.map (hp : Reads off p P) (f : α → β) :
    Reads off (fun bs => p bs >>= fun r => Pure.pure (f r.1, r.2)) (fun c bs => ∃ a, c = f a ∧ P a bs) where
  complete := by
    rintro _ bs ⟨a, rfl, ha⟩ rest
    rw [hp.complete ha]
    rfl
  sound := by
    intro bs c rest h
    cases hb : p bs with
    | error e => rw [hb] at h; cases h
    | ok r =>
      rw [hb] at h
      cases h
      obtain ⟨own, hs, ha⟩ := hp.sound hb
      exact ⟨own, hs, r.1, rfl, ha⟩
  missing := by
    intro bs e h
    cases hb : p bs with
    | error e' => rw [hb] at h; cases h; exact hp.missing hb
    | ok r => rw [hb] at h; cases h
  needed := by
    rintro bs more _ o n h ⟨a, rfl, ha⟩
    cases hb : p bs with
    | error e' => rw [hb] at h; cases h; exact hp.needed hb ha
    | ok r => rw [hb] at h; cases h

/-- Two readers, one behind the other, the first for a field of `k` bytes. -/
theorem Reads.bind {k : Nat} {q : α → List Byte → Except DecodeError (β × List Byte)} {Q : α → β → List Byte → Prop}
    (hp : Reads off p P) (hk : ∀ {a bs}, P a bs → bs.length = k) (hq : ∀ a, Reads (off + k) (q a) (Q a)) :
    Reads off (fun bs => p bs >>= fun r => q r.1 r.2)
      (fun c bs => ∃ a own rest, P a own ∧ Q a c rest ∧ bs = own ++ rest) where
  complete := by
    rintro c _ ⟨a, own, own', ha, hc, rfl⟩ rest
    simp only [List.append_assoc, hp.complete ha, Bind.bind, Except.bind, (hq a).complete hc]
  sound := by
    intro bs c rest h
    cases hb : p bs with
    | error e => rw [hb] at h; cases h
    | ok r =>
      rw [hb] at h
      obtain ⟨own, rfl, ha⟩ := hp.sound hb
      obtain ⟨own', hr, hc⟩ := (hq r.1).sound h
      exact ⟨own ++ own', by rw [hr, List.append_assoc], r.1, own, own', ha, hc, rfl⟩
  missing := by
    intro bs e h
    cases hb : p bs with
    | error e' => rw [hb] at h; cases h; exact hp.missing hb
    | ok r =>
      rw [hb] at h
      obtain ⟨own, rfl, ha⟩ := hp.sound hb
      obtain ⟨o, n, he, hn, hle, hlt⟩ := (hq r.1).missing h
      have hlen := hk ha
      simp only [List.length_append]
      exact ⟨o, n, he, hn, by omega, by omega⟩
  needed := by
    rintro bs more c o n h ⟨a, own, own', ha, hc, hsplit⟩
    have hlen := hk ha
    cases hb : p bs with
    | error e =>
      rw [hb] at h
      cases h
      rw [hsplit, List.length_append]
      obtain ⟨mid, hown, -⟩ | ⟨mid, hbs, -⟩ := List.append_eq_append_iff.1 hsplit
      · have := hp.needed hb (hown ▸ ha)
        rw [← hown] at this
        omega
      · rw [hbs, hp.complete ha] at hb
        cases hb
    | ok r =>
      rw [hb] at h
      obtain ⟨first, rfl, hr⟩ := hp.sound hb
      have hread : p (first ++ r.2 ++ more) = .ok (a, own') := hsplit ▸ hp.complete ha own'
      rw [List.append_assoc, hp.complete hr] at hread
      cases hread
      have := (hq r.1).needed h hc
      have hfirst := hk hr
      simp only [List.length_append] at this ⊢
      omega

end

/-! ### The field readers -/

theorem reads_take8 (off : Nat) : Reads off (take8 off) (fun b bs => bs = [b]) where
  complete := by rintro b _ rfl rest; rfl
  sound := fun {bs b rest} h => ⟨[b], take8_ok h, rfl⟩
  missing := by
    intro bs e h
    obtain ⟨rfl, rfl⟩ := take8_error h
    exact ⟨off, 1, rfl, .inl rfl, by simp, by simp⟩
  needed := by
    intro bs more b o n h hs
    obtain ⟨-, he⟩ := take8_error h
    cases he
    simp [hs]

theorem reads_takeOperand (off : Nat) :
    Reads off (takeOperand off) (fun a bs => a.wf = true ∧ bs = bytesOfWord a.raw) where
  complete := by rintro a _ ⟨ha, rfl⟩ rest; exact takeOperand_encoded ha off rest
  sound := fun {bs a rest} h => ⟨bytesOfWord a.raw, (takeOperand_ok h).1, (takeOperand_ok h).2, rfl⟩
  missing := by
    intro bs e h
    obtain ⟨hlen, rfl⟩ := takeOperand_error h
    exact ⟨off, 2, rfl, .inr rfl, by omega, by omega⟩
  needed := by
    rintro bs more a o n h ⟨-, hs⟩
    obtain ⟨-, he⟩ := takeOperand_error h
    cases he
    simp [hs]

/-- The string reader stops at the first terminator, so bytes without one are not the whole string (rule R51). -/
theorem reads_takeString (off : Nat) :
    Reads off (takeString off) (fun str bs => 0#8 ∉ str ∧ bs = str ++ [0#8]) where
  complete := by
    rintro str _ ⟨hz, rfl⟩ rest
    rw [List.append_assoc]
    exact takeString_encoded hz off rest
  sound := by
    intro bs str rest h
    obtain ⟨rfl, hz⟩ := takeString_ok h
    exact ⟨str ++ [0#8], by simp, hz, rfl⟩
  missing := by
    intro bs e h
    exact ⟨off + bs.length, 1, takeString_error h, .inl rfl, by omega, by omega⟩
  needed := by
    rintro bs more str o n h ⟨hz, hs⟩
    have he := takeString_error h
    cases he
    cases more with
    | nil =>
      rw [List.append_nil] at hs
      rw [hs, takeString_encoded hz off []] at h
      cases h
    | cons c more =>
      simp only [List.length_append, List.length_cons]
      omega

/-! ### The formats (rule R52) -/

/-- A field of one byte before the other fields. -/
theorem Reads.take8_bind {β : Type} {off : Nat} {q : Byte → List Byte → Except DecodeError (β × List Byte)}
    {Q : Byte → β → List Byte → Prop} (hq : ∀ b, Reads (off + 1) (q b) (Q b)) :
    Reads off (fun bs => take8 off bs >>= fun r => q r.1 r.2) (fun c bs => ∃ b rest, Q b c rest ∧ bs = b :: rest) :=
  ((reads_take8 off).bind (fun h => by simp [h]) hq).congr fun c bs =>
    ⟨fun ⟨b, own, rest, hb, hc, hs⟩ => ⟨b, rest, hc, by rw [hs, hb, List.singleton_append]⟩,
      fun ⟨b, rest, hc, hs⟩ => ⟨b, [b], rest, rfl, hc, hs⟩⟩

/-- An operand field before the other fields. -/
theorem Reads.takeOperand_bind {β : Type} {off : Nat} {q : Operand → List Byte → Except DecodeError (β × List Byte)}
    {Q : Operand → β → List Byte → Prop} (hq : ∀ a, Reads (off + 2) (q a) (Q a)) :
    Reads off (fun bs => takeOperand off bs >>= fun r => q r.1 r.2)
      (fun c bs => ∃ a rest, a.wf = true ∧ Q a c rest ∧ bs = bytesOfWord a.raw ++ rest) :=
  ((reads_takeOperand off).bind (fun h => by simp [h.2]) hq).congr fun c bs =>
    ⟨fun ⟨a, own, rest, ⟨ha, hown⟩, hc, hs⟩ => ⟨a, rest, ha, hc, by rw [hs, hown]⟩,
      fun ⟨a, rest, ha, hc, hs⟩ => ⟨a, _, rest, ⟨ha, rfl⟩, hc, hs⟩⟩

/-- The bytes behind the opcode byte of an instruction of format `RO`. -/
def SpellsRO (mk : Byte → Operand → Instr) (i : Instr) (bs : List Byte) : Prop :=
  ∃ idx a, i = mk idx a ∧ a.wf = true ∧ bs = idx :: bytesOfWord a.raw

/-- The bytes behind the opcode byte of an instruction of format `O`. -/
def SpellsO (mk : Operand → Instr) (i : Instr) (bs : List Byte) : Prop :=
  ∃ a, i = mk a ∧ a.wf = true ∧ bs = bytesOfWord a.raw

theorem reads_RO (mk : Byte → Operand → Instr) : Reads 1 (decodeRO mk) (SpellsRO mk) :=
  (Reads.take8_bind fun idx => (reads_takeOperand _).map (mk idx)).congr fun i bs =>
    ⟨fun ⟨idx, _, ⟨a, hi, ha, hrest⟩, hs⟩ => ⟨idx, a, hi, ha, by rw [hs, hrest]⟩,
      fun ⟨idx, a, hi, ha, hs⟩ => ⟨idx, _, ⟨a, hi, ha, rfl⟩, hs⟩⟩

theorem reads_O (mk : Operand → Instr) : Reads 1 (decodeO mk) (SpellsO mk) := (reads_takeOperand 1).map mk

/-- The bytes behind the opcode byte of an instruction, by its opcode (rules R52, R56). -/
def FieldsSpell : Opcode → Instr → List Byte → Prop
  | .exit, i, bs => i = .exit ∧ bs = []
  | .print, i, bs => ∃ str, i = .print str ∧ 0#8 ∉ str ∧ bs = str ++ [0#8]
  | .set, i, bs => SpellsRO .set i bs
  | .add, i, bs => SpellsRO .add i bs
  | .sub, i, bs => SpellsRO .sub i bs
  | .cmp, i, bs => ∃ cop a b, i = .cmp (CmpOp.ofByte cop) a b ∧ a.wf = true ∧ b.wf = true ∧
      bs = cop :: (bytesOfWord a.raw ++ bytesOfWord b.raw)
  | .cmpz, i, bs => SpellsO .cmpz i bs
  | .cmpnz, i, bs => SpellsO .cmpnz i bs
  | .sleep, i, bs => SpellsO .sleep i bs
  | .jump, i, bs => SpellsO .jump i bs
  | .jumpCond, i, bs => SpellsO .jumpCond i bs
  | .ledClear, i, bs => i = .ledClear ∧ bs = []
  | .ledSetN, i, bs => SpellsO .ledSetN i bs
  | .ledSetPixel, i, bs => ∃ p r g b, i = .ledSetPixel p r g b ∧ p.wf = true ∧ r.wf = true ∧ g.wf = true ∧
      b.wf = true ∧ bs = bytesOfWord p.raw ++ (bytesOfWord r.raw ++ (bytesOfWord g.raw ++ bytesOfWord b.raw))
  | .ledSync, i, bs => i = .ledSync ∧ bs = []
  | .ledBlur, i, bs => SpellsO .ledBlur i bs
  | .ledFill, i, bs => ∃ r g b, i = .ledFill r g b ∧ r.wf = true ∧ g.wf = true ∧ b.wf = true ∧
      bs = bytesOfWord r.raw ++ (bytesOfWord g.raw ++ bytesOfWord b.raw)

theorem reads_S : Reads 1 decodeS (FieldsSpell .print) := (reads_takeString 1).map Instr.print

theorem reads_CO2 : Reads 1 decodeCO2 (FieldsSpell .cmp) :=
  (Reads.take8_bind fun cop => Reads.takeOperand_bind fun a => (reads_takeOperand _).map fun b =>
    Instr.cmp (CmpOp.ofByte cop) a b).congr fun i bs =>
    ⟨fun ⟨cop, _, ⟨a, _, ha, ⟨b, hi, hb, h1⟩, h2⟩, h3⟩ => ⟨cop, a, b, hi, ha, hb, by rw [h3, h2, h1]⟩,
      fun ⟨cop, a, b, hi, ha, hb, hs⟩ => ⟨cop, _, ⟨a, _, ha, ⟨b, hi, hb, rfl⟩, rfl⟩, hs⟩⟩

theorem reads_O3 : Reads 1 decodeO3 (FieldsSpell .ledFill) :=
  (Reads.takeOperand_bind fun r => Reads.takeOperand_bind fun g => (reads_takeOperand _).map fun b =>
    Instr.ledFill r g b).congr fun i bs =>
    ⟨fun ⟨r, _, hr, ⟨g, _, hg, ⟨b, hi, hb, h1⟩, h2⟩, h3⟩ => ⟨r, g, b, hi, hr, hg, hb, by rw [h3, h2, h1]⟩,
      fun ⟨r, g, b, hi, hr, hg, hb, hs⟩ => ⟨r, _, hr, ⟨g, _, hg, ⟨b, hi, hb, rfl⟩, rfl⟩, hs⟩⟩

theorem reads_O4 : Reads 1 decodeO4 (FieldsSpell .ledSetPixel) :=
  (Reads.takeOperand_bind fun p => Reads.takeOperand_bind fun r => Reads.takeOperand_bind fun g =>
    (reads_takeOperand _).map fun b => Instr.ledSetPixel p r g b).congr fun i bs =>
    ⟨fun ⟨p, _, hp, ⟨r, _, hr, ⟨g, _, hg, ⟨b, hi, hb, h1⟩, h2⟩, h3⟩, h4⟩ =>
        ⟨p, r, g, b, hi, hp, hr, hg, hb, by rw [h4, h3, h2, h1]⟩,
      fun ⟨p, r, g, b, hi, hp, hr, hg, hb, hs⟩ =>
        ⟨p, _, hp, ⟨r, _, hr, ⟨g, _, hg, ⟨b, hi, hb, rfl⟩, rfl⟩, rfl⟩, hs⟩⟩

theorem reads_fields (o : Opcode) : Reads 1 (decodeFields o) (FieldsSpell o) := by
  cases o with
  | exit => exact Reads.pure 1 _
  | print => exact reads_S
  | set => exact reads_RO _
  | add => exact reads_RO _
  | sub => exact reads_RO _
  | cmp => exact reads_CO2
  | ledClear => exact Reads.pure 1 _
  | ledSetPixel => exact reads_O4
  | ledSync => exact Reads.pure 1 _
  | ledFill => exact reads_O3
  | _ => exact reads_O _

/-! ### The whole instruction -/

/-- Fields that an opcode's reader takes are, behind the opcode byte, the encoding of a well-formed instruction. -/
theorem encode_of_fieldsSpell {o : Opcode} {i : Instr} {bs : List Byte} (h : FieldsSpell o i bs) :
    i.wf = true ∧ encode i = o.byte :: bs := by
  cases o with
  | exit | ledClear | ledSync =>
    obtain ⟨rfl, rfl⟩ := h
    exact ⟨rfl, rfl⟩
  | print =>
    obtain ⟨str, rfl, hz, rfl⟩ := h
    exact ⟨decide_eq_true hz, rfl⟩
  | set | add | sub =>
    obtain ⟨idx, a, rfl, ha, rfl⟩ := h
    exact ⟨ha, rfl⟩
  | cmp =>
    obtain ⟨cop, a, b, rfl, ha, hb, rfl⟩ := h
    simp [Instr.wf, encode, ha, hb]
  | ledSetPixel =>
    obtain ⟨p, r, g, b, rfl, hp, hr, hg, hb, rfl⟩ := h
    simp [Instr.wf, encode, hp, hr, hg, hb]
  | ledFill =>
    obtain ⟨r, g, b, rfl, hr, hg, hb, rfl⟩ := h
    simp [Instr.wf, encode, hr, hg, hb]
  | cmpz | cmpnz | sleep | jump | jumpCond | ledSetN | ledBlur =>
    obtain ⟨a, rfl, ha, rfl⟩ := h
    exact ⟨ha, rfl⟩

/-- The encoding of a well-formed instruction is an unknown opcode byte, or an opcode byte and the fields its reader
takes. -/
theorem fieldsSpell_of_wf {i : Instr} (h : i.wf = true) :
    (∃ opc, i = .unknown opc ∧ Opcode.ofByte opc = none) ∨
    ∃ o bs, encode i = Opcode.byte o :: bs ∧ FieldsSpell o i bs := by
  cases i with
  | unknown opc => exact .inl ⟨opc, rfl, Opcode.ofByte_eq_none_iff.2 (by simpa [Instr.wf] using h)⟩
  | exit => exact .inr ⟨.exit, _, rfl, rfl, rfl⟩
  | ledClear => exact .inr ⟨.ledClear, _, rfl, rfl, rfl⟩
  | ledSync => exact .inr ⟨.ledSync, _, rfl, rfl, rfl⟩
  | print str => exact .inr ⟨.print, _, rfl, str, rfl, of_decide_eq_true h, rfl⟩
  | set idx a => exact .inr ⟨.set, _, rfl, idx, a, rfl, h, rfl⟩
  | add idx a => exact .inr ⟨.add, _, rfl, idx, a, rfl, h, rfl⟩
  | sub idx a => exact .inr ⟨.sub, _, rfl, idx, a, rfl, h, rfl⟩
  | cmp op a b =>
    simp only [Instr.wf, Bool.and_eq_true] at h
    obtain ⟨⟨hop, ha⟩, hb⟩ := h
    exact .inr ⟨.cmp, _, rfl, op.byte, a, b, by rw [CmpOp.ofByte_byte hop], ha, hb, rfl⟩
  | cmpz a => exact .inr ⟨.cmpz, _, rfl, a, rfl, h, rfl⟩
  | cmpnz a => exact .inr ⟨.cmpnz, _, rfl, a, rfl, h, rfl⟩
  | sleep a => exact .inr ⟨.sleep, _, rfl, a, rfl, h, rfl⟩
  | jump a => exact .inr ⟨.jump, _, rfl, a, rfl, h, rfl⟩
  | jumpCond a => exact .inr ⟨.jumpCond, _, rfl, a, rfl, h, rfl⟩
  | ledSetN a => exact .inr ⟨.ledSetN, _, rfl, a, rfl, h, rfl⟩
  | ledBlur a => exact .inr ⟨.ledBlur, _, rfl, a, rfl, h, rfl⟩
  | ledSetPixel p r g b =>
    simp only [Instr.wf, Bool.and_eq_true] at h
    obtain ⟨⟨⟨hp, hr⟩, hg⟩, hb⟩ := h
    exact .inr ⟨.ledSetPixel, _, rfl, p, r, g, b, rfl, hp, hr, hg, hb, rfl⟩
  | ledFill r g b =>
    simp only [Instr.wf, Bool.and_eq_true] at h
    obtain ⟨⟨hr, hg⟩, hb⟩ := h
    exact .inr ⟨.ledFill, _, rfl, r, g, b, rfl, hr, hg, hb, rfl⟩

theorem encode_length_pos (i : Instr) : 1 ≤ (encode i).length := by
  cases i <;> exact Nat.succ_pos _

theorem decode_unassigned {opc : Byte} (h : Opcode.ofByte opc = none) (rest : List Byte) :
    decode (opc :: rest) = .ok (.unknown opc, rest) := by
  simp only [decode, take8_cons, h]

/-- Everything `decode` does with a first byte. -/
theorem decode_cons (opc : Byte) (rest : List Byte) :
    (Opcode.ofByte opc = none ∧ decode (opc :: rest) = .ok (.unknown opc, rest)) ∨
    ∃ o : Opcode, opc = o.byte ∧ decode (opc :: rest) = decodeFields o rest := by
  cases ho : Opcode.ofByte opc with
  | none => exact .inl ⟨rfl, decode_unassigned ho rest⟩
  | some o =>
    obtain rfl := Opcode.byte_of_ofByte ho
    exact .inr ⟨o, rfl, Machine.decode_opcode o rest⟩

/-- The decoder reads the encodings of the well-formed instructions (30_encoding.md sections 1, 4 and 5). -/
theorem reads_decode : Reads 0 decode (fun i bs => i.wf = true ∧ bs = encode i) where
  complete := by
    rintro i _ ⟨hwf, rfl⟩ rest
    obtain ⟨opc, rfl, hopc⟩ | ⟨o, bs, henc, hbs⟩ := fieldsSpell_of_wf hwf
    · exact decode_unassigned hopc rest
    · rw [henc, List.cons_append, Machine.decode_opcode]
      exact (reads_fields o).complete hbs rest
  sound := by
    intro bs i rest h
    cases bs with
    | nil => cases h
    | cons opc tail =>
      obtain ⟨hopc, hd⟩ | ⟨o, rfl, hd⟩ := decode_cons opc tail
      · cases hd.symm.trans h
        exact ⟨[opc], rfl, by simpa [Instr.wf] using Opcode.ofByte_eq_none_iff.1 hopc, rfl⟩
      · obtain ⟨own, rfl, hown⟩ := (reads_fields o).sound (hd.symm.trans h)
        obtain ⟨hwf, henc⟩ := encode_of_fieldsSpell hown
        exact ⟨o.byte :: own, rfl, hwf, henc.symm⟩
  missing := by
    intro bs e h
    cases bs with
    | nil => cases h; exact ⟨0, 1, rfl, .inl rfl, by simp, by simp⟩
    | cons opc tail =>
      obtain ⟨-, hd⟩ | ⟨o, rfl, hd⟩ := decode_cons opc tail
      · cases hd.symm.trans h
      · obtain ⟨o', n, he, hn, hle, hlt⟩ := (reads_fields o).missing (hd.symm.trans h)
        simp only [List.length_cons]
        exact ⟨o', n, he, hn, by omega, by omega⟩
  needed := by
    rintro bs more i off n h ⟨hwf, hs⟩
    cases bs with
    | nil =>
      cases h
      rw [hs]
      have := encode_length_pos i
      omega
    | cons opc tail =>
      obtain ⟨-, hd⟩ | ⟨o, rfl, hd⟩ := decode_cons opc tail
      · cases hd.symm.trans h
      · obtain ⟨opc, rfl, hopc⟩ | ⟨o', bs', henc, hbs'⟩ := fieldsSpell_of_wf hwf
        · injection hs with ho _
          rw [← ho, Opcode.ofByte_byte] at hopc
          cases hopc
        · rw [henc] at hs
          injection hs with ho ht
          obtain rfl : o = o' := by simpa using congrArg Opcode.ofByte ho
          have := (reads_fields o).needed (hd.symm.trans h) (ht ▸ hbs')
          simp only [List.cons_append, List.length_cons] at this ⊢
          omega

/-- Settles O1: the decoder takes what spells an instruction, and the encoding does. -/
theorem decodeEncodeRoundTrip : Obligations.DecodeEncodeRoundTrip :=
  fun _ rest hwf => reads_decode.complete ⟨hwf, rfl⟩ rest

/-- Settles O2: the bytes the decoder took spell the instruction, so they are its encoding. -/
theorem decodedBytesAreTheEncoding : Obligations.DecodedBytesAreTheEncoding := by
  intro bytes i rest h
  obtain ⟨_, hbytes, hwf, rfl⟩ := reads_decode.sound h
  exact ⟨hbytes, hwf⟩

/-- Settles O4: readers fail for a missing field only. -/
theorem decodeFailsOnlyForMissingBytes : Obligations.DecodeFailsOnlyForMissingBytes := by
  intro bytes e h
  simpa only [Nat.zero_add] using reads_decode.missing h

/-- Settles O3: the eight words, each decoded by evaluation. -/
theorem writtenOutWordsDecode : Obligations.WrittenOutWordsDecode := ⟨rfl, rfl, rfl, rfl, rfl, rfl, rfl, rfl⟩

end Sys2Proof
end

section
/-! Fetching from the instruction stream (30_encoding.md rule R62, 20_memory.md rules R32, R33), and the step of a
running Interpreter in terms of what lies at `pc` (40_exit_print.md rule R70, 60_exceptions.md rule R102). -/

namespace Sys2Proof.Machine

theorem take8_stream (s : State) (a off : Nat) : take8 off (s.stream a) =
    if a + 1 > s.progMem then .error (.short off 1) else .ok (s.mem.read a, s.stream (a + 1)) := by
  by_cases h : a < s.progMem
  · rw [s.stream_of_lt h, if_neg (by omega), take8_cons]
  · rw [s.stream_of_ge (by omega), if_pos (by omega)]
    rfl

theorem take16_stream (s : State) (a off : Nat) : take16 off (s.stream a) =
    if a + 2 > s.progMem then .error (.short off 2)
    else .ok (s.mem.read (a + 1) ++ s.mem.read a, s.stream (a + 2)) := by
  by_cases h : a < s.progMem
  · by_cases h' : a + 1 < s.progMem
    · rw [s.stream_of_lt h, s.stream_of_lt h', if_neg (by omega)]
      rfl
    · rw [s.stream_of_lt h, s.stream_of_ge (by omega), if_pos (by omega)]
      rfl
  · rw [s.stream_of_ge (by omega), if_pos (by omega)]
    rfl

/-- Settles O6: the stream begins with the byte at its address as long as that lies in the store, and is empty from
there on. -/
theorem streamFetchesAreMemReads : Obligations.StreamFetchesAreMemReads :=
  fun s a off => ⟨take8_stream s a off, take16_stream s a off, rfl, rfl⟩

/-- Settles O7: with no other turn due the step is one whole instruction, the decoded one. -/
theorem stepRunsTheDecodedInstruction : Obligations.StepRunsTheDecodedInstruction := by
  intro s pc0 i rest hready hdecode
  rw [step_of_ready hready]
  exact State.lockedMove_of_decode_ok hdecode

/-- A stored instruction is what the stream decodes to (rule R50). -/
theorem decode_stream_of_holds {s : State} {pc0 : Nat} {i : Instr} (hwf : i.wf = true) (h : s.holds pc0 (encode i)) :
    decode (s.stream pc0) = .ok (i, s.stream (pc0 + (encode i).length)) := by
  obtain ⟨hfit, hread⟩ := h
  rw [s.stream_eq_append pc0 (encode i) hfit fun k hk => hread ⟨k, hk⟩]
  exact decodeEncodeRoundTrip i _ hwf

/-- Settles O8: a stored instruction is what the bytes at `pc` decode to. -/
theorem storedInstructionRuns : Obligations.StoredInstructionRuns :=
  fun s pc0 i hready hwf hholds =>
    stepRunsTheDecodedInstruction s pc0 i _ hready (decode_stream_of_holds hwf hholds)

/-- A field that cannot be decoded from the stream does not fit the store, and the fields before it do. -/
theorem stream_decode_error_bounds {s : State} {pc0 : Nat} {e : DecodeError} (h : decode (s.stream pc0) = .error e) :
    ∃ off n, e = .short off n ∧ pc0 + off + n > s.progMem ∧ (pc0 ≤ s.progMem → pc0 + off ≤ s.progMem) ∧
      off ≤ s.progMem - pc0 := by
  obtain ⟨off, n, he, -, hle, hlt⟩ := decodeFailsOnlyForMissingBytes _ _ h
  rw [s.stream_length] at hle hlt
  exact ⟨off, n, he, by omega, by omega, hle⟩

/-- Settles O9: the step is the decoder's error as a fault, and the decoder misses only what the store has not. -/
theorem fetchFaultIsPrecise : Obligations.FetchFaultIsPrecise := by
  intro s pc0 off n hready hdecode
  obtain ⟨_, _, he, hmiss, hfit, -⟩ := stream_decode_error_bounds hdecode
  cases he
  refine ⟨?_, hmiss, hfit⟩
  rw [step_of_ready hready, State.lockedMove_of_decode_error hdecode]
  rfl

/-- JUMP sets `pc` to the operand's value (43_sleep_jump.md rule R86). -/
theorem exec_jump_of_pc {s : State} {pc0 : Nat} (hpc : s.pc = .addr pc0) (a : Operand) :
    exec (.jump a) s = .next { s with pc := .addr (s.value a).toNat } := by
  rw [exec_jump, State.atPc_addr hpc]
  rfl

/-- Settles O10: the jump is the stored instruction, and behind the store's end the opcode fetch faults. -/
theorem jumpOutOfTheStoreFaultsOneStepLater : Obligations.JumpOutOfTheStoreFaultsOneStepLater := by
  intro s pc0 a hready hwf hholds hout
  have ⟨hmode, hpc, harb, hsched⟩ := hready
  constructor
  · rw [storedInstructionRuns s pc0 (.jump a) hready hwf hholds]
    exact exec_jump_of_pc hpc a
  · exact stepFaults_opcode { s with pc := .addr (s.value a).toNat } _ ⟨hmode, rfl, harb, hsched⟩
      (State.stream_of_ge _ hout)

end Sys2Proof.Machine
end

section
/-! Turns (log 3): the step of each agent at the head of the schedule. -/

namespace Sys2Proof.Machine

theorem step_of_input {s : State} {e : Input} {later : List Turn} (h : s.schedule = .input e :: later) :
    step s = .next ((s.setSchedule later).inputEvent e) := step_of_cons h

theorem step_of_loader {s : State} {k : Nat} {later : List Turn} (h : s.schedule = .loader k :: later) :
    step s = .next ((s.setSchedule later).loaderWrite k) := step_of_cons h

/-- An Interpreter's turn, scheduled or for want of any other, is its move with that turn taken. -/
theorem step_of_interp {s : State} (h : s.schedule = [] ∨ ∃ later, s.schedule = .interp :: later) :
    step s = (s.setSchedule s.schedule.tail).interpMove := by
  obtain hnil | ⟨later, hcons⟩ := h
  · rw [step_of_nil hnil, hnil, State.setSchedule, List.tail_nil, ← hnil]
  · rw [step_of_cons hcons, hcons]
    rfl

/-- The stream does not depend on whose turn comes. -/
@[simp] theorem stream_setSchedule (s : State) (later : List Turn) (a : Nat) :
    (s.setSchedule later).stream a = s.stream a := State.stream_congr (s := s) (t := s.setSchedule later) rfl rfl a

/-- Settles O11: by the turn at the head of the schedule. -/
theorem scheduledTurnsAreTaken : Obligations.ScheduledTurnsAreTaken := by
  intro s turn later hsched
  have hlocked {pc0 : Nat} (hturn : turn = .interp) (hmode : s.mode = .running) (hpc : s.pc = .addr pc0)
      (harb : s.arb = .locked) : step s = (s.setSchedule later).lockedMove pc0 := by
    rw [step_of_cons hsched, hturn]
    exact State.interpMove_locked hmode hpc harb
  refine ⟨?_, ?_, ?_, ?_⟩
  · rintro e rfl
    exact step_of_input hsched
  · rintro k rfl
    exact step_of_loader hsched
  · intro pc0 i rest hturn hmode hpc harb hdecode
    rw [hlocked hturn hmode hpc harb]
    exact State.lockedMove_of_decode_ok ((congrArg decode (stream_setSchedule s later pc0)).trans hdecode)
  · intro pc0 off n hturn hmode hpc harb hdecode
    rw [hlocked hturn hmode hpc harb, State.lockedMove_of_decode_error
      ((congrArg decode (stream_setSchedule s later pc0)).trans hdecode)]
    rfl

/-- Settles O12: outside Running the Interpreter's move is idle. -/
theorem noInstructionOutsideRunning : Obligations.NoInstructionOutsideRunning := by
  intro s hmode hturn
  rw [step_of_interp hturn]
  exact State.interpMove_idle hmode

/-- Settles O40: a reset event gives the reset state, whatever it finds. -/
theorem resetEventReinitialises : Obligations.ResetEventReinitialises :=
  fun _ _ hsched => step_of_input hsched

/-- Settles O41: the reset state's fields, and an empty list of written bytes, which reads as the boot image. -/
theorem resetStateValues : Obligations.ResetStateValues :=
  ⟨by decide, rfl, rfl, rfl, rfl, rfl, rfl, fun _ => rfl, rfl, rfl, by decide, by decide, rfl⟩

/-- Settles O42: by the mode the `run` event finds. -/
theorem runEventByMode : Obligations.RunEventByMode := by
  intro s later hsched
  rw [step_of_input hsched]
  obtain ⟨hm, he⟩ | ⟨hm, he⟩ | ⟨hu, hh, he⟩ := (s.setSchedule later).runEvent_cases <;>
    simp only [State.inputEvent, he]
  · exact ⟨fun _ => rfl, fun h => Mode.noConfusion (hm.symm.trans h), fun h => absurd hm h⟩
  · exact ⟨fun h => Mode.noConfusion (hm.symm.trans h), fun _ => rfl, fun _ h => absurd hm h⟩
  · exact ⟨fun h => absurd h hu, fun h => absurd h hh, fun _ _ => rfl⟩

/-- Settles O43: by the mode the completion event finds. -/
theorem completionEventsEndTheirWait : Obligations.CompletionEventsEndTheirWait := by
  intro s later
  constructor
  · intro hsched
    rw [step_of_input hsched]
    obtain ⟨hm, he⟩ | ⟨hm, he⟩ := (s.setSchedule later).wakeEvent_cases <;> simp only [State.inputEvent, he]
    · exact ⟨fun _ => rfl, fun h => absurd hm h⟩
    · exact ⟨fun h => absurd h hm, fun _ => rfl⟩
  · intro hsched
    rw [step_of_input hsched]
    obtain ⟨hm, he⟩ | ⟨hm, he⟩ := (s.setSchedule later).syncDoneEvent_cases <;> simp only [State.inputEvent, he]
    · exact ⟨fun _ => rfl, fun h => absurd hm h⟩
    · exact ⟨fun h => absurd h hm, fun _ => rfl⟩

/-- A run of the core goes on from the state its first step gives. -/
theorem core_run_succ {s t : State} (h : step s = .next t) (k : Nat) :
    Sys2Proof.core.run (k + 1) s = Sys2Proof.core.run k t := by
  have hcore : Sys2Proof.core.step s = .next t := h
  simp only [Host.Core.run, hcore]

/-- Settles O44: EXIT leaves Halted behind it, where the `run` event resumes. -/
theorem runResumesAfterExit : Obligations.RunResumesAfterExit := by
  intro s pc0 later hmode hpc harb hsched hholds
  obtain ⟨-, -, hinterp, -⟩ := scheduledTurnsAreTaken s _ _ hsched
  have hexit : step s = .next { s with schedule := .input .run :: later, pc := .addr (pc0 + 1), mode := .halted } := by
    rw [hinterp pc0 .exit _ rfl hmode hpc harb (decode_stream_of_holds rfl hholds)]
    exact exec_exit_of_pc hpc
  obtain ⟨-, hresume, -⟩ := runEventByMode
    { s with schedule := .input .run :: later, pc := .addr (pc0 + 1), mode := .halted } later rfl
  rw [core_run_succ hexit, core_run_succ hexit, core_run_succ (hresume rfl)]
  exact ⟨rfl, by rw [← hmode]; rfl⟩

end Sys2Proof.Machine
end

section
/-! The instructions of format `O`: SLEEP, JUMP, JUMP_COND, LED_SET_N and LED_BLUR (43_sleep_jump.md rules R85 to R87,
44_display.md rules R91, R94), and LED_SYNC (rule R93). -/

namespace Sys2Proof.Machine

/-- Settles O22: SLEEP's own effect, and format `O` behind byte 0x08. -/
theorem sleepSuspends : Obligations.SleepSuspends := by
  refine ⟨fun s pc0 a hpc => ?_, step_of_formatO (o := .sleep) fun _ => rfl⟩
  rw [exec_sleep, State.atPc_addr hpc]
  rfl

/-- Settles O23: JUMP's own effect, and format `O` behind byte 0x09. -/
theorem jumpSetsThePc : Obligations.JumpSetsThePc :=
  ⟨fun _ _ a hpc => exec_jump_of_pc hpc a, step_of_formatO (o := .jump) fun _ => rfl⟩

/-- Settles O24: JUMP_COND by the flag, and format `O` behind byte 0x0A. -/
theorem jumpCondFollowsTheFlag : Obligations.JumpCondFollowsTheFlag := by
  refine ⟨fun s pc0 a hpc => ?_, step_of_formatO (o := .jumpCond) fun _ => rfl⟩
  rw [exec_jumpCond, State.atPc_addr hpc]
  exact ⟨fun htaken => by rw [if_pos htaken]; rfl, fun hnot => by rw [if_neg (by simp [hnot])]; rfl⟩

/-- Settles O26: LED_SET_N's own effect, with the low byte as the remainder by 256, and format `O` behind byte 0x0C. -/
theorem ledSetNSetsThePixelCount : Obligations.LedSetNSetsThePixelCount := by
  refine ⟨fun s pc0 a hpc => ?_, step_of_formatO (o := .ledSetN) fun _ => rfl⟩
  rw [exec_ledSetN, State.atPc_addr hpc, lowByte_eq]
  rfl

/-- Settles O28: LED_SYNC's own effect, the idle Interpreter in WaitSync, and the decoding of its one byte. -/
theorem ledSyncWaits : Obligations.LedSyncWaits := by
  refine ⟨fun s pc0 hpc => ?_, fun s later hmode hsched => ?_, stepRuns_of_decode (decode_opcode .ledSync),
    stepFaults_opcode⟩
  · rw [exec_ledSync, State.atPc_addr hpc]
    rfl
  · have hidle := noInstructionOutsideRunning s (by simp [hmode]) (.inr ⟨later, hsched⟩)
    rwa [hsched] at hidle

/-- The clamp of rule R94 as a choice among three cases. -/
theorem clampRadius_eq (v : Word) :
    clampRadius v = if v.toNat < 1 then 1 else if v.toNat ≤ 4 then v.toNat else 4 := by
  unfold clampRadius
  split
  · omega
  · split <;> omega

/-- Settles O29: LED_BLUR's own effect, with the clamp written out, and format `O` behind byte 0x0F. -/
theorem ledBlurClampsTheRadius : Obligations.LedBlurClampsTheRadius := by
  refine ⟨fun s pc0 a hpc => ?_, step_of_formatO (o := .ledBlur) fun _ => rfl⟩
  rw [exec_ledBlur, State.atPc_addr hpc, clampRadius_eq]
  rfl

end Sys2Proof.Machine
end

section
/-! PRINT (40_exit_print.md rule R72): the string up to its terminator, and the fault where the store has none. -/

namespace Sys2Proof.Machine

theorem decode_print (bs : List Byte) : decode (0x01 :: bs) = decodeS bs := decode_opcode .print bs

/-- Bytes without a terminator are no PRINT: the fetch behind the last of them fails. -/
theorem decodeS_unterminated {str : List Byte} (h : 0#8 ∉ str) : decodeS str = .error (.short (1 + str.length) 1) := by
  rw [decodeS, takeString_unterminated h]
  rfl

/-- Settles O14: PRINT's own effect, the decoding of its string, and the fault at the end of an unterminated one. -/
theorem printEmitsStringAndRegisters : Obligations.PrintEmitsStringAndRegisters := by
  refine ⟨fun s pc0 str hpc => ?_, fun str hz => ?_, stepFaults_opcode, fun str hz => ?_⟩
  · rw [exec_print, State.atPc_addr hpc, Nat.add_assoc]
    rfl
  · exact stepRuns_of_decode fun rest => decodeEncodeRoundTrip (.print str) rest (decide_eq_true hz)
  · exact stepFaults_of_decode ((decode_print str).trans (decodeS_unterminated hz))

end Sys2Proof.Machine
end

section
/-! CMP and format `CO2` (30_encoding.md rules R52, R59, 42_compare.md rules R80, R83). -/

namespace Sys2Proof.Machine

theorem decode_cmp (bs : List Byte) : decode (0x05 :: bs) = decodeCO2 bs := decode_opcode .cmp bs

theorem decodeCO2_bytes (cop : Byte) {alo ahi blo bhi : Byte} {a b : Operand}
    (ha : Operand.ofRaw (ahi ++ alo) = some a) (hb : Operand.ofRaw (bhi ++ blo) = some b) (rest : List Byte) :
    decodeCO2 (cop :: alo :: ahi :: blo :: bhi :: rest) = .ok (.cmp (CmpOp.ofByte cop) a b, rest) := by
  simp only [decodeCO2, take8_cons, takeOperand_bytes ha, takeOperand_bytes hb, bind, Except.bind, pure, Except.pure]

/-- Byte 0x05, an op byte and two operand fields are a whole CMP. -/
theorem stepRuns_cmp (cop : Byte) {alo ahi blo bhi : Byte} {a b : Operand}
    (ha : Operand.ofRaw (ahi ++ alo) = some a) (hb : Operand.ofRaw (bhi ++ blo) = some b) :
    StepRuns [0x05, cop, alo, ahi, blo, bhi] (.cmp (CmpOp.ofByte cop) a b) :=
  stepRuns_of_decode fun rest => (decode_cmp _).trans (decodeCO2_bytes cop ha hb rest)

/-- The store ends in CMP's first operand. -/
theorem stepFaults_cmp_val1 (cop : Byte) {tail : List Byte} (h : tail.length < 2) :
    StepFaults (0x05 :: cop :: tail) 2 2 :=
  stepFaults_of_decode <| (decode_cmp _).trans <| takeOperand_bind_short 2 h

/-- The store ends in CMP's second operand. -/
theorem stepFaults_cmp_val2 (cop alo ahi : Byte) {tail : List Byte} (h : tail.length < 2) :
    StepFaults (0x05 :: cop :: alo :: ahi :: tail) 4 2 :=
  stepFaults_of_decode <| (decode_cmp _).trans <|
    takeOperand_bind_error 2 alo ahi fun _ => takeOperand_bind_short 4 h

/-- CMP's effect with the flag it computes. -/
theorem exec_cmp_of_pc {s : State} {pc0 : Nat} (hpc : s.pc = .addr pc0) (op : CmpOp) (a b : Operand) :
    exec (.cmp op a b) s = .next { s with
      pc := .addr (pc0 + 6), flag := cmpFlag op (s.value a) (s.value b) s.flag } := by
  rw [exec_cmp, State.atPc_addr hpc]
  rfl

theorem cmpFlag_ne (a b : Word) (old : Bool) : cmpFlag .ne a b old = (a.toNat != b.toNat) := decide_not

/-- Settles O18: CMP's effect for each of its four op bytes, its decoding, and the faults of its four fetches. -/
theorem cmpComparesUnsigned : Obligations.CmpComparesUnsigned := by
  refine ⟨fun s pc0 a b hpc => ?_, fun alo ahi blo bhi a b ha hb => ?_, stepFaults_opcode, ?_,
    fun cop alo ahi blo => ?_⟩
  · refine ⟨exec_cmp_of_pc hpc .eq a b, exec_cmp_of_pc hpc .gt a b, exec_cmp_of_pc hpc .lt a b, ?_⟩
    rw [exec_cmp_of_pc hpc, cmpFlag_ne]
  · exact ⟨stepRuns_cmp 0x3D ha hb, stepRuns_cmp 0x3E ha hb, stepRuns_cmp 0x3C ha hb, stepRuns_cmp 0x21 ha hb⟩
  · exact stepFaults_of_decode rfl
  · exact ⟨stepFaults_cmp_val1 cop Nat.two_pos, stepFaults_cmp_val1 cop Nat.one_lt_two,
      stepFaults_cmp_val2 cop alo ahi Nat.two_pos, stepFaults_cmp_val2 cop alo ahi Nat.one_lt_two⟩

/-- Settles O19: CMP's effect keeps the flag for an op byte that names no comparison, and such a byte decodes so. -/
theorem cmpUnknownOpKeepsTheFlag : Obligations.CmpUnknownOpKeepsTheFlag := by
  intro cop heq hgt hlt hne
  refine ⟨fun s pc0 a b hpc => exec_cmp_of_pc hpc (.other cop) a b, fun alo ahi blo bhi a b ha hb => ?_⟩
  have hother : CmpOp.ofByte cop = .other cop :=
    CmpOp.ofByte_byte (op := .other cop) (decide_eq_true ⟨heq, hgt, hlt, hne⟩)
  exact hother ▸ stepRuns_cmp cop ha hb

end Sys2Proof.Machine
end

section
/-! LED_FILL and format `O3` (30_encoding.md rule R52, 44_display.md rule R95). -/

namespace Sys2Proof.Machine

theorem decode_ledFill (bs : List Byte) : decode (0x10 :: bs) = decodeO3 bs := decode_opcode .ledFill bs

theorem decodeO3_bytes {rlo rhi glo ghi blo bhi : Byte} {r g b : Operand} (hr : Operand.ofRaw (rhi ++ rlo) = some r)
    (hg : Operand.ofRaw (ghi ++ glo) = some g) (hb : Operand.ofRaw (bhi ++ blo) = some b) (rest : List Byte) :
    decodeO3 (rlo :: rhi :: glo :: ghi :: blo :: bhi :: rest) = .ok (.ledFill r g b, rest) := by
  simp only [decodeO3, takeOperand_bytes hr, takeOperand_bytes hg, takeOperand_bytes hb, bind, Except.bind, pure,
    Except.pure]

section
variable {tail : List Byte} (rlo rhi glo ghi : Byte)

/-- The store ends in the operand r. -/
theorem stepFaults_ledFill_r (h : tail.length < 2) : StepFaults (0x10 :: tail) 1 2 :=
  stepFaults_of_decode <| (decode_ledFill _).trans <| takeOperand_bind_short 1 h

/-- The store ends in the operand g. -/
theorem stepFaults_ledFill_g (h : tail.length < 2) : StepFaults (0x10 :: rlo :: rhi :: tail) 3 2 :=
  stepFaults_of_decode <| (decode_ledFill _).trans <|
    takeOperand_bind_error 1 rlo rhi fun _ => takeOperand_bind_short 3 h

/-- The store ends in the operand b. -/
theorem stepFaults_ledFill_b (h : tail.length < 2) : StepFaults (0x10 :: rlo :: rhi :: glo :: ghi :: tail) 5 2 :=
  stepFaults_of_decode <| (decode_ledFill _).trans <|
    takeOperand_bind_error 1 rlo rhi fun _ => takeOperand_bind_error 3 glo ghi fun _ => takeOperand_bind_short 5 h

end

/-- Settles O30: LED_FILL's events, the decoding of its seven bytes, and for each of its operands the fault where the
store has none or one of the operand's two bytes. -/
theorem ledFillSetsEveryActivePixel : Obligations.LedFillSetsEveryActivePixel := by
  refine ⟨fun s pc0 r g b hpc => ?_, fun rlo rhi glo ghi blo bhi r g b hr hg hb => ?_, stepFaults_opcode,
    stepFaults_ledFill_r Nat.two_pos, fun rlo rhi glo ghi blo => ?_⟩
  · refine ⟨_, by rw [exec_ledFill, State.atPc_addr hpc]; rfl, fillEvents_length _ _ _ _, fun k hk => ?_⟩
    rw [fillEvents_getElem, lowByte_eq, lowByte_eq, lowByte_eq]
  · exact stepRuns_of_decode fun rest => (decode_ledFill _).trans (decodeO3_bytes hr hg hb rest)
  · exact ⟨stepFaults_ledFill_r Nat.one_lt_two,
      stepFaults_ledFill_g rlo rhi Nat.two_pos, stepFaults_ledFill_g rlo rhi Nat.one_lt_two,
      stepFaults_ledFill_b rlo rhi glo ghi Nat.two_pos, stepFaults_ledFill_b rlo rhi glo ghi Nat.one_lt_two⟩

end Sys2Proof.Machine
end

section
/-! What any instruction does to each part of the state, said once for all eighteen: what it leaves alone, and for each
part it can change which instructions change it, and to what (20_memory.md rule R31, 10_state.md sections 2 to 7). -/

namespace Sys2Proof.Machine

/-- The Program Store, the Loader's parts, the parameters and the schedule of `t` are those of `s`. -/
structure State.SameStore (s t : State) : Prop where
  mem : t.mem = s.mem
  stage : t.stage = s.stage
  stageLen : t.stageLen = s.stageLen
  pending : t.pending = s.pending
  progMem : t.progMem = s.progMem
  arb : t.arb = s.arb
  schedule : t.schedule = s.schedule

/-- What an instruction's effect makes of a part of the state, wherever the instruction stands. -/
theorem State.atPc_part {α : Type} (part : State → α) {s t : State} {body : Nat → State} {v : α}
    (h : s.atPc body = .next t) (hbody : ∀ pc0, part (body pc0) = v) : part t = v := by
  obtain ⟨pc0, -, rfl⟩ := State.atPc_eq_next h
  exact hbody pc0

/-- What SET, ADD and SUB make of a part of the state that is neither the registers nor written by a fault. -/
theorem State.updateReg_part {α : Type} (part : State → α) {s t : State} {idx : Byte} {f : Word → Word} {v : α}
    (h : s.updateReg idx f = .next t) (hset : ∀ r w a, part ((s.setReg r w).setPc a) = v)
    (hraise : ∀ a r, part (s.raiseAt a r) = v) : part t = v := by
  obtain ⟨pc0, -, ⟨_, rfl⟩ | ⟨-, rfl⟩⟩ := State.updateReg_eq_next h
  · exact hset _ _ _
  · exact hraise _ _

theorem State.atPc_sameStore {s t : State} {body : Nat → State} (h : s.atPc body = .next t)
    (hbody : ∀ pc0, s.SameStore (body pc0)) : s.SameStore t := by
  obtain ⟨pc0, -, rfl⟩ := State.atPc_eq_next h
  exact hbody pc0

theorem State.updateReg_sameStore {s t : State} {idx : Byte} {f : Word → Word} (h : s.updateReg idx f = .next t) :
    s.SameStore t := by
  obtain ⟨pc0, -, ⟨_, rfl⟩ | ⟨-, rfl⟩⟩ := State.updateReg_eq_next h <;> exact ⟨rfl, rfl, rfl, rfl, rfl, rfl, rfl⟩

/-- No instruction writes the Program Store, the Loader's parts, a parameter or the schedule. -/
theorem exec_sameStore {i : Instr} {s t : State} (h : exec i s = .next t) : s.SameStore t := by
  cases i with
  | set idx a | add idx a | sub idx a =>
    simp only [exec_set, exec_add, exec_sub] at h
    exact State.updateReg_sameStore h
  | _ => exact State.atPc_sameStore h fun _ => ⟨rfl, rfl, rfl, rfl, rfl, rfl, rfl⟩

/-- Settles O32: every instruction's effect leaves the store and what belongs to the other agents. -/
theorem instructionsLeaveMemoryAlone : Obligations.InstructionsLeaveMemoryAlone := by
  intro i s t h
  have hsame := exec_sameStore h
  exact ⟨fun a => by rw [hsame.mem], hsame.stage, hsame.stageLen, hsame.pending, hsame.progMem, hsame.arb,
    hsame.schedule⟩

/-! ### The store's contents do not matter -/

/-- An effect that takes the store along unread does so in the state with another store. -/
theorem State.atPc_withMem {s t : State} {body body' : Nat → State} {m : Memory} (h : s.atPc body = .next t)
    (hbody : ∀ pc0, body' pc0 = { body pc0 with mem := m }) :
    { s with mem := m }.atPc body' = .next { t with mem := m } := by
  obtain ⟨pc0, hpc, rfl⟩ := State.atPc_eq_next h
  rw [State.atPc_addr (s := { s with mem := m }) hpc, hbody]

theorem State.updateReg_withMem {s t : State} {idx : Byte} {f : Word → Word} (m : Memory)
    (h : s.updateReg idx f = .next t) : { s with mem := m }.updateReg idx f = .next { t with mem := m } :=
  State.atPc_withMem h fun pc0 => by split <;> rfl

/-- Settles O33: every instruction's effect takes the store along unread. -/
theorem instructionsDoNotReadTheStore : Obligations.InstructionsDoNotReadTheStore := by
  intro i s t m h
  cases i with
  | set idx a | add idx a | sub idx a =>
    simp only [exec_set, exec_add, exec_sub] at h
    exact State.updateReg_withMem m h
  | _ => exact State.atPc_withMem h fun _ => rfl

/-! ### Registers, flag and pixel count -/

/-- The registers after a register update: the old ones, or one of them written. -/
theorem State.updateReg_x {s t : State} {idx : Byte} {f : Word → Word} (h : s.updateReg idx f = .next t) :
    t.x = s.x ∨ ∃ v, ∃ hi : idx.toNat < 4, t.x = s.x.set idx.toNat v hi := by
  obtain ⟨pc0, -, ⟨hi, rfl⟩ | ⟨-, rfl⟩⟩ := State.updateReg_eq_next h
  · exact .inr ⟨_, hi, rfl⟩
  · exact .inl rfl

/-- A register that a register update changes is the one its raw index names. -/
theorem State.updateReg_changes {s t : State} {idx : Byte} {f : Word → Word} (h : s.updateReg idx f = .next t)
    {r : Fin 4} (hne : t.x[r.val] ≠ s.x[r.val]) : idx.toNat = r.val := by
  obtain hx | ⟨v, hi, hx⟩ := State.updateReg_x h
  · exact absurd (by rw [hx]) hne
  · by_contra hidx
    refine hne ?_
    simp only [hx]
    exact Vector.getElem_set_ne hi r.isLt hidx

/-- Settles O34: SET, ADD and SUB are the register updates, and every other instruction keeps the registers. -/
theorem registersChangeOnlyByTheirIndex : Obligations.RegistersChangeOnlyByTheirIndex := by
  intro i s t r h hne
  cases i with
  | set idx a | add idx a | sub idx a =>
    simp only [exec_set, exec_add, exec_sub] at h
    exact ⟨idx, a, State.updateReg_changes h hne, by simp⟩
  | _ => exact absurd (congrArg (·[r.val]) (State.atPc_part State.x h fun _ => rfl)) hne

theorem exec_flag {i : Instr} {s t : State} (h : exec i s = .next t) :
    t.flag = s.flag ∨ (∃ op a b, i = .cmp op a b) ∨ (∃ a, i = .cmpz a) ∨ ∃ a, i = .cmpnz a := by
  cases i with
  | set idx a | add idx a | sub idx a =>
    simp only [exec_set, exec_add, exec_sub] at h
    exact .inl (State.updateReg_part State.flag h (fun _ _ _ => rfl) fun _ _ => rfl)
  | cmp op a b => exact .inr (.inl ⟨op, a, b, rfl⟩)
  | cmpz a => exact .inr (.inr (.inl ⟨a, rfl⟩))
  | cmpnz a => exact .inr (.inr (.inr ⟨a, rfl⟩))
  | _ => exact .inl (State.atPc_part State.flag h fun _ => rfl)

theorem exec_npix {i : Instr} {s t : State} (h : exec i s = .next t) : t.npix = s.npix ∨ ∃ a, i = .ledSetN a := by
  cases i with
  | set idx a | add idx a | sub idx a =>
    simp only [exec_set, exec_add, exec_sub] at h
    exact .inl (State.updateReg_part State.npix h (fun _ _ _ => rfl) fun _ _ => rfl)
  | ledSetN a => exact .inr ⟨a, rfl⟩
  | _ => exact .inl (State.atPc_part State.npix h fun _ => rfl)

/-- Settles O35: the CMP family alone sets the flag, and LED_SET_N alone the pixel count. -/
theorem flagAndPixelCountWriters : Obligations.FlagAndPixelCountWriters :=
  fun _ _ _ h => ⟨(exec_flag h).resolve_left, (exec_npix h).resolve_left⟩

/-! ### Output, mode and fault -/

/-- The events an instruction emits (10_state.md rule R19). -/
def emitted (s : State) : Instr → List OutEvent
  | .print str => [.print str s.x[0] s.x[1] s.x[2] s.x[3]]
  | .sleep a => [.sleep (s.value a)]
  | .ledClear => [.displayClear]
  | .ledSetN a => [.displaySetPixelCount (lowByte (s.value a))]
  | .ledSetPixel i r g b =>
    [.displaySetPixel (lowByte (s.value i)) (lowByte (s.value r)) (lowByte (s.value g)) (lowByte (s.value b))]
  | .ledSync => [.displaySync true]
  | .ledBlur a => [.displayBlur (clampRadius (s.value a))]
  | .ledFill r g b => fillEvents s.npix (lowByte (s.value r)) (lowByte (s.value g)) (lowByte (s.value b))
  | _ => []

theorem exec_out {i : Instr} {s t : State} (h : exec i s = .next t) : t.out = s.out ++ emitted s i := by
  have hnone : s.out = s.out ++ [] := (List.append_nil _).symm
  cases i with
  | set idx a | add idx a | sub idx a =>
    simp only [exec_set, exec_add, exec_sub] at h
    exact State.updateReg_part State.out h (fun _ _ _ => hnone) fun _ _ => hnone
  | exit | cmp | cmpz | cmpnz | jump | jumpCond | unknown => exact State.atPc_part State.out h fun _ => hnone
  | _ => exact State.atPc_part State.out h fun _ => rfl

/-- What a well-formed instruction emits is admitted (rule R19): a waiting sync, a clamped radius, a string without a
terminator. -/
theorem emitted_wf {i : Instr} (s : State) (hwf : i.wf = true) {e : OutEvent} (he : e ∈ emitted s i) : e.wf = true := by
  cases i with
  | print str => obtain rfl := List.mem_singleton.1 he; exact hwf
  | ledBlur a => obtain rfl := List.mem_singleton.1 he; exact decide_eq_true (clampRadius_range _)
  | sleep | ledClear | ledSetN | ledSetPixel | ledSync => obtain rfl := List.mem_singleton.1 he; rfl
  | ledFill r g b =>
    obtain ⟨k, -, rfl⟩ := List.mem_map.1 he
    rfl
  | _ => cases he

/-- The instructions that emit at all. -/
theorem emitted_ne_nil {i : Instr} {s : State} (h : emitted s i ≠ []) :
    (∃ str, i = .print str) ∨ (∃ a, i = .sleep a) ∨ i = .ledClear ∨ (∃ a, i = .ledSetN a) ∨
      (∃ p r g b, i = .ledSetPixel p r g b) ∨ i = .ledSync ∨ (∃ a, i = .ledBlur a) ∨ ∃ r g b, i = .ledFill r g b := by
  cases i with
  | print | sleep | ledClear | ledSetN | ledSetPixel | ledSync | ledBlur | ledFill => simp
  | _ => exact absurd rfl h

/-- The whole effect of a register update on `fault`, `mode` and the record of a half-fetched instruction. -/
theorem State.updateReg_fault {s t : State} {idx : Byte} {f : Word → Word} (h : s.updateReg idx f = .next t) :
    (t.fault = s.fault ∧ t.fetching = s.fetching ∧ t.mode = s.mode) ∨
    ∃ pc0, s.pc = .addr pc0 ∧ 4 ≤ idx.toNat ∧ t = s.raiseAt (pc0 + 4) (.badRegIndex pc0 idx) := by
  obtain ⟨pc0, hpc, ⟨_, rfl⟩ | ⟨hi, rfl⟩⟩ := State.updateReg_eq_next h
  · exact .inl ⟨rfl, rfl, rfl⟩
  · exact .inr ⟨pc0, hpc, hi, rfl⟩

/-- An instruction ends well, in a mode it enters on purpose, or it is `BadRegIndex` of SET, ADD or SUB (rules R79,
R103). -/
theorem exec_fault {i : Instr} {s t : State} (h : exec i s = .next t) :
    (t.fault = s.fault ∧ t.fetching = s.fetching ∧ (t.mode = s.mode ∨ (i = .exit ∧ t.mode = .halted) ∨
      ((∃ a, i = .sleep a) ∧ t.mode = .waitSleep) ∨ (i = .ledSync ∧ t.mode = .waitSync))) ∨
    ∃ pc0 idx a, s.pc = .addr pc0 ∧ 4 ≤ idx.toNat ∧ (i = .set idx a ∨ i = .add idx a ∨ i = .sub idx a) ∧
      t = s.raiseAt (pc0 + 4) (.badRegIndex pc0 idx) := by
  cases i with
  | set idx a | add idx a | sub idx a =>
    simp only [exec_set, exec_add, exec_sub] at h
    obtain ⟨hfault, hfetch, hmode⟩ | ⟨pc0, hpc, hidx, rfl⟩ := State.updateReg_fault h
    · exact .inl ⟨hfault, hfetch, .inl hmode⟩
    · exact .inr ⟨pc0, idx, a, hpc, hidx, by simp, rfl⟩
  | exit | sleep | ledSync => obtain ⟨pc0, -, rfl⟩ := State.atPc_eq_next h; exact .inl ⟨rfl, rfl, by simp⟩
  | _ => obtain ⟨pc0, -, rfl⟩ := State.atPc_eq_next h; exact .inl ⟨rfl, rfl, .inl rfl⟩

/-- Settles O36: the events each instruction emits, and how it ends. -/
theorem outputModeAndFaultWriters : Obligations.OutputModeAndFaultWriters := by
  intro i s t h
  refine ⟨⟨emitted s i, exec_out h, fun e he hwf => emitted_wf s hwf he⟩, fun hout => ?_, fun hmode => ?_,
    fun hfault => ?_⟩
  · exact emitted_ne_nil fun hnil => hout (by rw [exec_out h, hnil, List.append_nil])
  · obtain ⟨-, -, hkept | hexit | hsleep | hsync⟩ | ⟨pc0, idx, a, -, -, -, rfl⟩ := exec_fault h
    · exact absurd hkept hmode
    · exact .inl hexit
    · exact .inr (.inl hsleep)
    · exact .inr (.inr (.inl hsync))
    · exact .inr (.inr (.inr ⟨rfl, nofun⟩))
  · obtain ⟨hkept, -⟩ | ⟨pc0, idx, a, -, hidx, hi, -⟩ := exec_fault h
    · exact absurd hkept hfault
    · exact ⟨idx, a, hidx, hi⟩

/-! ### Where `pc` goes -/

theorem State.atPc_pc {s t : State} {body : Nat → State} {pc0 n : Nat} (hpc : s.pc = .addr pc0)
    (h : s.atPc body = .next t) (hbody : (body pc0).pc = .addr n) : t.pc = .addr n := by
  rw [State.atPc_addr hpc] at h
  cases h
  exact hbody

theorem State.updateReg_pc {s t : State} {pc0 : Nat} {idx : Byte} {f : Word → Word} (hpc : s.pc = .addr pc0)
    (h : s.updateReg idx f = .next t) : t.pc = .addr (pc0 + 4) :=
  State.atPc_pc hpc h (by split <;> rfl)

/-- Settles O37: every effect but a taken jump's moves `pc` by the length of the encoding. -/
theorem pcGoesPastTheInstruction : Obligations.PcGoesPastTheInstruction := by
  intro i s t pc0 hpc h hjump hcond
  cases i with
  | set idx a | add idx a | sub idx a =>
    simp only [exec_set, exec_add, exec_sub] at h
    exact State.updateReg_pc hpc h
  | jump a => exact absurd rfl (hjump a)
  | jumpCond a =>
    have hflag := hcond a rfl
    exact State.atPc_pc hpc h (by rw [hflag]; rfl)
  | print str =>
    obtain ⟨hlen, -⟩ := Laws.EncodeSize.print str
    rw [hlen]
    exact State.atPc_pc hpc h rfl
  | _ => exact State.atPc_pc hpc h rfl

/-- An instruction whose bytes lie below an address leaves `pc` at most there or at a 16-bit jump target
(10_state.md rule R13). -/
theorem exec_pc_le {i : Instr} {s t : State} {pc0 : Nat} (hpc : s.pc = .addr pc0) (h : exec i s = .next t)
    (hfit : pc0 + (encode i).length ≤ 65536) : ∃ a, t.pc = .addr a ∧ a ≤ 65536 := by
  have hpast (hjump : ∀ a, i ≠ .jump a) (hcond : ∀ a, i = .jumpCond a → s.flag = false) :
      ∃ a, t.pc = .addr a ∧ a ≤ 65536 := ⟨_, pcGoesPastTheInstruction i s t pc0 hpc h hjump hcond, hfit⟩
  have htarget (a : Operand) : (s.value a).toNat ≤ 65536 := Nat.le_of_lt (s.value a).isLt
  cases i with
  | jump a => exact ⟨_, State.atPc_pc hpc h rfl, htarget a⟩
  | jumpCond a =>
    cases hflag : s.flag with
    | false => exact hpast nofun fun _ _ => hflag
    | true => exact ⟨_, State.atPc_pc hpc h (by rw [hflag]; rfl), htarget a⟩
  | _ => exact hpast nofun nofun

end Sys2Proof.Machine
end

section
/-! What a step of any agent can do, and what each agent leaves alone (00_scope.md rule R6, 20_memory.md rule R31). -/

namespace Sys2Proof.Machine

/-! ### The Interpreter's move under either arbitration -/

/-- Everything the Interpreter's move can do, up to where `pc` and the record of fetched bytes stand: nothing outside
Running, the execution of an instruction, a fetch fault, or a racy read. -/
theorem State.interpMove_cases {s t : State} (h : s.interpMove = .next t) :
    (s.mode ≠ .running ∧ t = s) ∨
    (∃ pc0 fetching i, s.mode = .running ∧ exec i { s with pc := .addr pc0, fetching := fetching } = .next t) ∨
    (∃ pc0 off n, s.mode = .running ∧ t = s.raiseAt (pc0 + off) (.fetchOutOfBounds pc0 (pc0 + off) n)) ∨
    (∃ pc f, s.mode = .running ∧ t = { s with pc := .addr pc, fetching := some f }) := by
  have hfault {pc0 : Nat} {bs : List Byte} {e : DecodeError} (hmode : s.mode = .running) (he : decode bs = .error e) :
      ∃ pc0' off n, s.mode = .running ∧
        s.fetchFault pc0 e = s.raiseAt (pc0' + off) (.fetchOutOfBounds pc0' (pc0' + off) n) := by
    obtain ⟨off, n, rfl, -⟩ := decodeFailsOnlyForMissingBytes _ _ he
    exact ⟨pc0, off, n, hmode, rfl⟩
  obtain hidle | ⟨pc0, hmode, hpc, -, hmove⟩ | ⟨pc, hmode, -, -, hmove⟩ := State.interpMove_eq_next h
  · exact .inl hidle
  · obtain ⟨i, rest, -, hexec⟩ | ⟨e, he, rfl⟩ := State.lockedMove_eq_next hmove
    · exact .inr (.inl ⟨pc0, s.fetching, i, hmode, by rw [← hpc]; exact hexec⟩)
    · exact .inr (.inr (.inl (hfault hmode he)))
  · obtain ⟨i, rest, -, hexec⟩ | ⟨e, he, rfl⟩ | ⟨off, n, -, -, rfl⟩ := State.racyMove_eq_next hmove
    · exact .inr (.inl ⟨_, none, i, hmode, hexec⟩)
    · exact .inr (.inr (.inl (hfault hmode he)))
    · exact .inr (.inr (.inr ⟨_, _, hmode, rfl⟩))

/-- The Interpreter writes no byte of the store and nothing of the other agents'. -/
theorem State.interpMove_sameStore {s t : State} (h : s.interpMove = .next t) : s.SameStore t := by
  obtain ⟨-, rfl⟩ | ⟨pc0, fetching, i, -, hexec⟩ | ⟨pc0, off, n, -, rfl⟩ | ⟨pc, f, -, rfl⟩ := State.interpMove_cases h
  · exact ⟨rfl, rfl, rfl, rfl, rfl, rfl, rfl⟩
  · obtain ⟨hmem, hstage, hlen, hpending, hprog, harb, hsched⟩ := exec_sameStore hexec
    exact ⟨hmem, hstage, hlen, hpending, hprog, harb, hsched⟩
  · exact ⟨rfl, rfl, rfl, rfl, rfl, rfl, rfl⟩
  · exact ⟨rfl, rfl, rfl, rfl, rfl, rfl, rfl⟩

/-- The Interpreter only extends the output stream. -/
theorem State.interpMove_out {s t : State} (h : s.interpMove = .next t) : ∃ es, t.out = s.out ++ es := by
  obtain ⟨-, rfl⟩ | ⟨pc0, fetching, i, -, hexec⟩ | ⟨pc0, off, n, -, rfl⟩ | ⟨pc, f, -, rfl⟩ := State.interpMove_cases h
  · exact ⟨[], (List.append_nil _).symm⟩
  · have hout := exec_out hexec
    exact ⟨_, hout⟩
  · exact ⟨[], (List.append_nil _).symm⟩
  · exact ⟨[], (List.append_nil _).symm⟩

/-! ### The Loader and the environment -/

/-- What a delivered chunk leaves alone, whether it is applied, ignored or has to wait. -/
theorem State.chunkEvent_frame (s : State) (bytes : List Byte) :
    (s.chunkEvent bytes).x = s.x ∧ (s.chunkEvent bytes).flag = s.flag ∧ (s.chunkEvent bytes).npix = s.npix ∧
    (s.chunkEvent bytes).out = s.out ∧ (s.chunkEvent bytes).pc = s.pc ∧
    (s.chunkEvent bytes).progMem = s.progMem ∧ (s.chunkEvent bytes).arb = s.arb := by
  obtain ⟨-, h⟩ | ⟨-, -, h⟩ | ⟨-, -, h⟩ := s.chunkEvent_cases bytes
  · simp [h]
  · obtain ⟨hx, hflag, hnpix, hout, hpc, hprog, harb, -⟩ := s.applyChunk_frame bytes
    exact h ▸ ⟨hx, hflag, hnpix, hout, hpc, hprog, harb⟩
  · obtain ⟨hx, hflag, hnpix, hout, hpc, -, -, hprog, harb, -⟩ :=
      (s.setSchedule (.input (.chunk bytes) :: s.schedule)).loaderWrite_frame 0
    exact h ▸ ⟨hx, hflag, hnpix, hout, hpc, hprog, harb⟩

/-- What an input event but `reset` leaves alone: `pc` too, but for a `run` event in Unstarted (60_exceptions.md
section 5). -/
theorem State.inputEvent_frame (s : State) {e : Input} (he : e ≠ .reset) :
    (s.inputEvent e).x = s.x ∧ (s.inputEvent e).flag = s.flag ∧ (s.inputEvent e).npix = s.npix ∧
    (s.inputEvent e).out = s.out ∧
    ((s.inputEvent e).pc = s.pc ∨ e = .run ∧ s.mode = .unstarted ∧ (s.inputEvent e).pc = .addr 0) := by
  cases e with
  | reset => exact absurd rfl he
  | run => obtain ⟨hm, h⟩ | ⟨-, h⟩ | ⟨-, -, h⟩ := s.runEvent_cases <;> simp [State.inputEvent, *]
  | chunk bytes =>
    obtain ⟨hx, hflag, hnpix, hout, hpc, -⟩ := s.chunkEvent_frame bytes
    exact ⟨hx, hflag, hnpix, hout, .inl hpc⟩
  | wake => obtain ⟨-, h⟩ | ⟨-, h⟩ := s.wakeEvent_cases <;> simp [State.inputEvent, h]
  | syncDone => obtain ⟨-, h⟩ | ⟨-, h⟩ := s.syncDoneEvent_cases <;> simp [State.inputEvent, h]

theorem State.inputEvent_params (s : State) (e : Input) :
    (s.inputEvent e).progMem = s.progMem ∧ (s.inputEvent e).arb = s.arb := by
  cases e with
  | reset => exact ⟨rfl, rfl⟩
  | run => obtain ⟨-, h⟩ | ⟨-, h⟩ | ⟨-, -, h⟩ := s.runEvent_cases <;> simp [State.inputEvent, h]
  | chunk bytes =>
    obtain ⟨-, -, -, -, -, hprog, harb⟩ := s.chunkEvent_frame bytes
    exact ⟨hprog, harb⟩
  | wake => obtain ⟨-, h⟩ | ⟨-, h⟩ := s.wakeEvent_cases <;> simp [State.inputEvent, h]
  | syncDone => obtain ⟨-, h⟩ | ⟨-, h⟩ := s.syncDoneEvent_cases <;> simp [State.inputEvent, h]

/-- Only `reset` and a chunk change the store; the other events leave it. -/
theorem State.inputEvent_mem (s : State) {e : Input} (hreset : e ≠ .reset) (hchunk : ∀ bytes, e ≠ .chunk bytes) :
    (s.inputEvent e).mem = s.mem := by
  cases e with
  | reset => exact absurd rfl hreset
  | chunk bytes => exact absurd rfl (hchunk bytes)
  | run => obtain ⟨-, h⟩ | ⟨-, h⟩ | ⟨-, -, h⟩ := s.runEvent_cases <;> simp [State.inputEvent, h]
  | wake => obtain ⟨-, h⟩ | ⟨-, h⟩ := s.wakeEvent_cases <;> simp [State.inputEvent, h]
  | syncDone => obtain ⟨-, h⟩ | ⟨-, h⟩ := s.syncDoneEvent_cases <;> simp [State.inputEvent, h]

/-! ### The step -/

/-- Everything a step can do, by the turn that is taken. -/
theorem step_cases {s t : State} (h : step s = .next t) :
    ((s.schedule = [] ∨ ∃ later, s.schedule = .interp :: later) ∧
      (s.setSchedule s.schedule.tail).interpMove = .next t) ∨
    (∃ k later, s.schedule = .loader k :: later ∧ t = (s.setSchedule later).loaderWrite k) ∨
    (∃ e later, s.schedule = .input e :: later ∧ t = (s.setSchedule later).inputEvent e) := by
  have hinterp (hturn : s.schedule = [] ∨ ∃ later, s.schedule = .interp :: later) :
      (s.setSchedule s.schedule.tail).interpMove = .next t := (step_of_interp hturn).symm.trans h
  obtain ⟨hnil, -⟩ | ⟨later, hcons, -⟩ | hloader | hinput := step_eq_next h
  · exact .inl ⟨.inl hnil, hinterp (.inl hnil)⟩
  · exact .inl ⟨.inr ⟨later, hcons⟩, hinterp (.inr ⟨later, hcons⟩)⟩
  · exact .inr (.inl hloader)
  · exact .inr (.inr hinput)

/-- Settles O53: by the turn that is taken. -/
theorem parametersNeverChange : Obligations.ParametersNeverChange := by
  intro s t h
  obtain ⟨-, hmove⟩ | ⟨k, later, -, rfl⟩ | ⟨e, later, -, rfl⟩ := step_cases h
  · have hsame := State.interpMove_sameStore hmove
    exact ⟨hsame.progMem, hsame.arb⟩
  · obtain ⟨-, -, -, -, -, -, -, hprog, harb, -⟩ := (s.setSchedule later).loaderWrite_frame k
    exact ⟨hprog, harb⟩
  · exact (s.setSchedule later).inputEvent_params e

/-- Settles O54: the Interpreter appends, and no other turn but a reset touches the output stream. -/
theorem outputOnlyGrows : Obligations.OutputOnlyGrows := by
  intro s t h
  have hkept {u : State} (hu : u.out = s.out) : ∃ es, u.out = s.out ++ es := ⟨[], by rw [hu, List.append_nil]⟩
  obtain ⟨-, hmove⟩ | ⟨k, later, -, rfl⟩ | ⟨e, later, hsched, rfl⟩ := step_cases h
  · have hout := State.interpMove_out hmove
    exact .inl hout
  · obtain ⟨-, -, -, hout, -⟩ := (s.setSchedule later).loaderWrite_frame k
    exact .inl (hkept hout)
  · by_cases he : e = .reset
    · subst he
      exact .inr ⟨⟨later, hsched⟩, rfl⟩
    · obtain ⟨-, -, -, hout, -⟩ := (s.setSchedule later).inputEvent_frame he
      exact .inl (hkept hout)

/-- Settles O45: by the turn that is taken, a Loader's or an input event's. -/
theorem inputsDoNotRedirectTheProgram : Obligations.InputsDoNotRedirectTheProgram := by
  intro s t turn later hsched hinterp hreset h
  cases turn with
  | interp => exact absurd rfl hinterp
  | loader k =>
    rw [step_of_loader hsched] at h
    cases h
    obtain ⟨hx, hflag, hnpix, hout, hpc, -⟩ := (s.setSchedule later).loaderWrite_frame k
    exact ⟨hx, hflag, hnpix, hout, .inl hpc⟩
  | input e =>
    rw [step_of_input hsched] at h
    cases h
    have he : e ≠ .reset := fun he => hreset (congrArg Turn.input he)
    obtain ⟨hx, hflag, hnpix, hout, hpc⟩ := (s.setSchedule later).inputEvent_frame he
    exact ⟨hx, hflag, hnpix, hout, hpc.imp_right fun ⟨hrun, hmode, hzero⟩ => ⟨congrArg Turn.input hrun, hmode, hzero⟩⟩

/-- Settles O48: the Interpreter leaves the store, and so do the events that are neither a reset nor a chunk. -/
theorem onlyTheLoaderWritesTheStore : Obligations.OnlyTheLoaderWritesTheStore := by
  intro s t a h hne
  obtain ⟨-, hmove⟩ | ⟨k, later, hsched, -⟩ | ⟨e, later, hsched, rfl⟩ := step_cases h
  · exact absurd (by rw [(State.interpMove_sameStore hmove).mem]; rfl) hne
  · exact ⟨later, .inr (.inr ⟨k, hsched⟩)⟩
  · by_cases hreset : e = .reset
    · exact ⟨later, .inl (hreset ▸ hsched)⟩
    · by_cases hchunk : ∃ bytes, e = .chunk bytes
      · obtain ⟨bytes, rfl⟩ := hchunk
        exact ⟨later, .inr (.inl ⟨bytes, hsched⟩)⟩
      · have hmem := (s.setSchedule later).inputEvent_mem hreset fun bytes he => hchunk ⟨bytes, he⟩
        exact absurd (by rw [hmem]; rfl) hne

/-! ### Faults (60_exceptions.md rules R107, R108) -/

/-- In Faulted no event but `reset` has an effect. -/
theorem State.inputEvent_of_faulted {s : State} (hmode : s.mode = .faulted) {e : Input} (he : e ≠ .reset) :
    s.inputEvent e = s := by
  cases e with
  | reset => exact absurd rfl he
  | run => simp [State.inputEvent, State.runEvent, hmode]
  | chunk bytes => simp [State.inputEvent, State.chunkEvent, hmode]
  | wake => simp [State.inputEvent, State.wakeEvent, hmode]
  | syncDone => simp [State.inputEvent, State.syncDoneEvent, hmode]

/-- Settles O39: by the turn that is taken, none of which moves in Faulted but a reset. -/
theorem faultedIsLeftOnlyByReset : Obligations.FaultedIsLeftOnlyByReset := by
  intro s hmode
  refine ⟨fun hreset => ?_, fun later hsched => step_of_input hsched⟩
  have hidle : s.mode ≠ .running := by simp [hmode]
  cases hsched : s.schedule with
  | nil => rw [noInstructionOutsideRunning s hidle (.inl hsched), hsched]
  | cons turn later =>
    cases turn with
    | interp => rw [noInstructionOutsideRunning s hidle (.inr ⟨later, hsched⟩), hsched]
    | loader k =>
      rw [step_of_loader hsched, State.loaderWrite, if_pos (show (s.setSchedule later).mode = .faulted from hmode)]
      rfl
    | input e =>
      have he : e ≠ .reset := fun he => hreset later (he ▸ hsched)
      rw [step_of_input hsched, State.inputEvent_of_faulted (s := s.setSchedule later) hmode he]
      rfl

/-- A delivered chunk records no fault, or one of the Loader's in the way of rule R107. -/
theorem State.chunkEvent_fault (s : State) (bytes : List Byte) :
    (s.chunkEvent bytes).fault = s.fault ∨ ∃ f, 4 ≤ f.code ∧ s.chunkEvent bytes = s.raiseLoader f := by
  obtain ⟨-, h⟩ | ⟨-, -, h⟩ | ⟨-, -, h⟩ := s.chunkEvent_cases bytes
  · exact .inl (by rw [h])
  · obtain ⟨f, hf, hf'⟩ | ⟨-, -, offset, -, ⟨-, h'⟩ | ⟨-, h'⟩⟩ := s.applyChunk_cases bytes
    · exact .inr ⟨f, hf, h.trans hf'⟩
    · exact .inl (by simp [h, h'])
    · exact .inl (by simp [h, h'])
  · obtain ⟨-, -, -, -, -, -, hfault, -⟩ :=
      (s.setSchedule (.input (.chunk bytes) :: s.schedule)).loaderWrite_frame 0
    exact .inl (h ▸ hfault)

/-- What the Interpreter's move can record as a fault. -/
theorem State.interpMove_fault {s t : State} (h : s.interpMove = .next t) :
    t.fault = s.fault ∨ (∃ pc0 addr n, t = s.raiseAt addr (.fetchOutOfBounds pc0 addr n)) ∨
      ∃ pc0 idx, t = s.raiseAt (pc0 + 4) (.badRegIndex pc0 idx) := by
  obtain ⟨-, rfl⟩ | ⟨pc0, fetching, i, -, hexec⟩ | ⟨pc0, off, n, -, rfl⟩ | ⟨pc, f, -, rfl⟩ := State.interpMove_cases h
  · exact .inl rfl
  · obtain ⟨hfault, -⟩ | ⟨pc0, idx, a, -, -, -, rfl⟩ := exec_fault hexec
    · exact .inl hfault
    · exact .inr (.inr ⟨pc0, idx, rfl⟩)
  · exact .inr (.inl ⟨pc0, pc0 + off, n, rfl⟩)
  · exact .inl rfl

theorem State.inputEvent_fault (s : State) (e : Input) :
    (s.inputEvent e).fault = none ∨ (s.inputEvent e).fault = s.fault ∨
      ∃ f, 4 ≤ f.code ∧ s.inputEvent e = s.raiseLoader f := by
  cases e with
  | reset => exact .inl rfl
  | run => obtain ⟨-, h⟩ | ⟨-, h⟩ | ⟨-, -, h⟩ := s.runEvent_cases <;> simp [State.inputEvent, h]
  | chunk bytes => exact .inr (s.chunkEvent_fault bytes)
  | wake => obtain ⟨-, h⟩ | ⟨-, h⟩ := s.wakeEvent_cases <;> simp [State.inputEvent, h]
  | syncDone => obtain ⟨-, h⟩ | ⟨-, h⟩ := s.syncDoneEvent_cases <;> simp [State.inputEvent, h]

/-- A step that records a fault is one of the three ways to enter one, on the state with the turn taken. -/
theorem step_enters_fault {s t : State} {f : FaultRecord} (h : step s = .next t) (hnone : s.fault = none)
    (hf : t.fault = some f) : ∃ later,
    (∃ pc0 addr n, f = .fetchOutOfBounds pc0 addr n ∧ t = (s.setSchedule later).raiseAt addr f) ∨
    (∃ pc0 idx, f = .badRegIndex pc0 idx ∧ t = (s.setSchedule later).raiseAt (pc0 + 4) f) ∨
    (4 ≤ f.code ∧ t = (s.setSchedule later).raiseLoader f) := by
  have hnew : t.fault ≠ s.fault := by simp [hnone, hf]
  have hsome : t.fault ≠ none := by simp [hf]
  obtain ⟨-, hmove⟩ | ⟨k, later, -, rfl⟩ | ⟨e, later, -, rfl⟩ := step_cases h
  · obtain hkept | ⟨pc0, addr, n, rfl⟩ | ⟨pc0, idx, rfl⟩ := State.interpMove_fault hmove
    · exact absurd hkept hnew
    · cases hf
      exact ⟨_, .inl ⟨pc0, addr, n, rfl, rfl⟩⟩
    · cases hf
      exact ⟨_, .inr (.inl ⟨pc0, idx, rfl, rfl⟩)⟩
  · obtain ⟨-, -, -, -, -, -, hkept, -⟩ := (s.setSchedule later).loaderWrite_frame k
    exact absurd hkept hnew
  · obtain hreset | hkept | ⟨f', hcode, he⟩ := (s.setSchedule later).inputEvent_fault e
    · exact absurd hreset hsome
    · exact absurd hkept hnew
    · rw [he] at hf
      cases hf
      exact ⟨later, .inr (.inr ⟨hcode, he⟩)⟩

/-- Settles O38: by the three ways to enter a fault, none of which touches more than rule R107 says. -/
theorem faultEntryKeepsTheRest : Obligations.FaultEntryKeepsTheRest := by
  intro s t f h hnone hf
  have hstays (hmode : t.mode = .faulted) := (faultedIsLeftOnlyByReset t hmode).1
  obtain ⟨later, ⟨pc0, addr, n, rfl, rfl⟩ | ⟨pc0, idx, rfl, rfl⟩ | ⟨hcode, rfl⟩⟩ := step_enters_fault h hnone hf
  · refine ⟨rfl, rfl, rfl, rfl, rfl, fun _ => rfl, fun hcode => ?_, fun _ => ⟨rfl, rfl⟩, ?_, nofun,
      by simp [FaultRecord.code], hstays rfl⟩
    · exact absurd hcode (by simp [FaultRecord.code])
    · rintro _ _ _ ⟨⟩
      rfl
  · refine ⟨rfl, rfl, rfl, rfl, rfl, fun _ => rfl, fun hcode => ?_, fun _ => ⟨rfl, rfl⟩, nofun, ?_,
      by simp [FaultRecord.code], hstays rfl⟩
    · exact absurd hcode (by simp [FaultRecord.code])
    · rintro _ _ ⟨⟩
      rfl
  · refine ⟨rfl, rfl, rfl, rfl, rfl, fun _ => rfl, fun _ => ⟨rfl, rfl, rfl⟩, fun hlow => ?_, ?_, ?_, by omega,
      hstays rfl⟩
    · omega
    · rintro _ _ _ rfl
      exact absurd hcode (by simp [FaultRecord.code])
    · rintro _ _ rfl
      exact absurd hcode (by simp [FaultRecord.code])

end Sys2Proof.Machine
end

section
/-! `apply_chunk` (20_memory.md rules R37 to R41): each of its outcomes, and the store after an accepted chunk. -/

namespace Sys2Proof.Machine

/-- The destination a chunk of at least 2 bytes names (20_memory.md rule R36). -/
abbrev chunkOffset (bytes : List Byte) : Nat := (bytes.getD 0 0).toNat + 256 * (bytes.getD 1 0).toNat

section
variable {s : State} {bytes : List Byte}

theorem State.applyChunk_tooShort (h : bytes.length < 2) :
    s.applyChunk bytes = s.raiseLoader (.loaderTooShort bytes.length) := if_pos h

theorem State.applyChunk_tooLong (h : bytes.length > 256) :
    s.applyChunk bytes = s.raiseLoader (.loaderTooLong bytes.length) := by
  rw [State.applyChunk, if_neg (by omega), if_pos (show bytes.length > Config.stageCap from h)]

/-- The third check and what follows it, once the first two have passed. -/
theorem State.applyChunk_of_length (h2 : 2 ≤ bytes.length) (h256 : bytes.length ≤ 256) : s.applyChunk bytes =
    if chunkOffset bytes + (bytes.length - 2) > s.progMem then
      s.raiseLoader (.loaderOverflow (chunkOffset bytes) (bytes.length - 2))
    else (s.stageChunk bytes).acceptChunk (chunkOffset bytes) (bytes.drop 2) := by
  rw [State.applyChunk, if_neg (by omega), if_neg (show ¬bytes.length > Config.stageCap from Nat.not_lt.2 h256)]
  simp only [State.stageChunk_payload, State.stageChunk_offset s h2, List.length_drop]

theorem State.applyChunk_overflow (h2 : 2 ≤ bytes.length) (h256 : bytes.length ≤ 256)
    (hover : chunkOffset bytes + (bytes.length - 2) > s.progMem) :
    s.applyChunk bytes = s.raiseLoader (.loaderOverflow (chunkOffset bytes) (bytes.length - 2)) := by
  rw [State.applyChunk_of_length h2 h256, if_pos hover]

theorem State.applyChunk_locked (harb : s.arb = .locked) (h2 : 2 ≤ bytes.length) (h256 : bytes.length ≤ 256)
    (hfit : chunkOffset bytes + (bytes.length - 2) ≤ s.progMem) :
    s.applyChunk bytes = (s.writeBytes (chunkOffset bytes) (bytes.drop 2)).clearStage := by
  rw [State.applyChunk_of_length h2 h256, if_neg (Nat.not_lt.2 hfit),
    State.acceptChunk_locked (s := s.stageChunk bytes) harb (by rwa [List.length_drop]),
    State.stageChunk_writeBytes_clearStage]

theorem State.applyChunk_racy (harb : s.arb = .racy) (h2 : 2 ≤ bytes.length) (h256 : bytes.length ≤ 256)
    (hfit : chunkOffset bytes + (bytes.length - 2) ≤ s.progMem) :
    s.applyChunk bytes =
      ((s.stageChunk bytes).setPending (cellsFrom (chunkOffset bytes) (bytes.drop 2))).clearStageIfDone := by
  rw [State.applyChunk_of_length h2 h256, if_neg (Nat.not_lt.2 hfit),
    State.acceptChunk_racy (s := s.stageChunk bytes) harb]

theorem State.chunkEvent_apply (hmode : s.mode ≠ .faulted) (hpending : s.pending = []) :
    s.chunkEvent bytes = s.applyChunk bytes := by
  rw [State.chunkEvent, if_neg hmode, if_pos hpending]

theorem State.chunkEvent_faulted (hmode : s.mode = .faulted) : s.chunkEvent bytes = s := if_pos hmode

end

/-- The step of a chunk's delivery with no chunk in progress. -/
theorem step_of_chunk {s : State} {bytes : List Byte} {later : List Turn}
    (hsched : s.schedule = .input (.chunk bytes) :: later) (hmode : s.mode ≠ .faulted) (hpending : s.pending = []) :
    step s = .next ((s.setSchedule later).applyChunk bytes) :=
  (step_of_input hsched).trans (congrArg _ (State.chunkEvent_apply (s := s.setSchedule later) hmode hpending))

/-- Settles O46: the outcome of each check, and the store after the whole payload has been written. -/
theorem applyChunk : Obligations.ApplyChunk := by
  intro s bytes later hsched hmode hpending offset rejected
  rw [step_of_chunk hsched hmode hpending]
  refine ⟨fun hshort => ?_, fun hlong => ?_, fun h2 h256 hover => ?_, fun harb h2 h256 hfit => ?_⟩
  · rw [State.applyChunk_tooShort hshort]
    rfl
  · rw [State.applyChunk_tooLong hlong]
    rfl
  · rw [State.applyChunk_overflow (s := s.setSchedule later) h2 h256 hover]
    rfl
  · refine ⟨s.mem.writeBytes offset (bytes.drop 2), ?_, fun k hk => ?_, fun a ha => ?_⟩
    · rw [State.applyChunk_locked (s := s.setSchedule later) harb h2 h256 hfit]
      rfl
    · exact Memory.read_writeBytes_inside _ _ _ k hk
    · exact Memory.read_writeBytes_outside _ _ (by rwa [List.length_drop])

/-- Writing the same bytes to the same place again changes nothing (20_memory.md rule R39). -/
theorem Memory.read_writeBytes_twice (m : Memory) (a : Nat) (bytes : List Byte) (a' : Nat) :
    ((m.writeBytes a bytes).writeBytes a bytes).read a' = (m.writeBytes a bytes).read a' := by
  by_cases hin : a ≤ a' ∧ a' < a + bytes.length
  · obtain ⟨k, rfl⟩ := Nat.exists_eq_add_of_le hin.1
    have hk : k < bytes.length := by omega
    rw [Memory.read_writeBytes_inside _ _ _ k hk, Memory.read_writeBytes_inside _ _ _ k hk]
  · exact Memory.read_writeBytes_outside _ _ (by omega)

/-- A chunk applied with no other in progress passes the three checks, or it leaves the block in Faulted. -/
theorem State.applyChunk_faulted_or_fits (s : State) (bytes : List Byte) :
    (s.applyChunk bytes).mode = .faulted ∨
    (2 ≤ bytes.length ∧ bytes.length ≤ 256 ∧ chunkOffset bytes + (bytes.length - 2) ≤ s.progMem) := by
  by_cases h2 : 2 ≤ bytes.length
  · by_cases h256 : bytes.length ≤ 256
    · by_cases hfit : chunkOffset bytes + (bytes.length - 2) ≤ s.progMem
      · exact .inr ⟨h2, h256, hfit⟩
      · exact .inl (by rw [State.applyChunk_overflow h2 h256 (Nat.lt_of_not_le hfit)]; rfl)
    · exact .inl (by rw [State.applyChunk_tooLong (Nat.lt_of_not_le h256)]; rfl)
  · exact .inl (by rw [State.applyChunk_tooShort (Nat.lt_of_not_le h2)]; rfl)

/-- A chunk delivered twice, by the outcome of the first delivery: Faulted ignores the second one, and a chunk that
fitted fits again. -/
theorem State.chunkEvent_twice_read {s : State} {bytes : List Byte} (harb : s.arb = .locked) (hpending : s.pending = [])
    (later : List Turn) (a : Nat) :
    (((s.chunkEvent bytes).setSchedule later).chunkEvent bytes).mem.read a = (s.chunkEvent bytes).mem.read a := by
  have hignored (hmode : (s.chunkEvent bytes).mode = .faulted) :
      (((s.chunkEvent bytes).setSchedule later).chunkEvent bytes).mem.read a = (s.chunkEvent bytes).mem.read a := by
    rw [State.chunkEvent_faulted (s := (s.chunkEvent bytes).setSchedule later) hmode]
    rfl
  by_cases hmode : s.mode = .faulted
  · exact hignored (by rw [State.chunkEvent_faulted hmode, hmode])
  · have hfirst := State.chunkEvent_apply (bytes := bytes) hmode hpending
    obtain hfaulted | ⟨h2, h256, hfit⟩ := s.applyChunk_faulted_or_fits bytes
    · exact hignored (hfirst ▸ hfaulted)
    · let written := (s.writeBytes (chunkOffset bytes) (bytes.drop 2)).clearStage.setSchedule later
      rw [hfirst, State.applyChunk_locked harb h2 h256 hfit,
        State.chunkEvent_apply (s := written) hmode hpending, State.applyChunk_locked (s := written) harb h2 h256 hfit]
      exact Memory.read_writeBytes_twice _ _ _ a

/-- A delivery with no chunk in progress is over in its turn. -/
theorem State.chunkEvent_schedule {s : State} (hpending : s.pending = []) (bytes : List Byte) :
    (s.chunkEvent bytes).schedule = s.schedule := by
  obtain ⟨-, h⟩ | ⟨-, -, h⟩ | ⟨-, hne, -⟩ := s.chunkEvent_cases bytes
  · rw [h]
  · obtain ⟨-, -, -, -, -, -, -, hsched⟩ := s.applyChunk_frame bytes
    rw [h, hsched]
  · exact absurd hpending hne

/-- Settles O47: two steps, each a delivery of the chunk. -/
theorem chunkTwiceIsChunkOnce : Obligations.ChunkTwiceIsChunkOnce := by
  intro s bytes later hsched harb hpending
  let s₁ := s.setSchedule (.input (.chunk bytes) :: later)
  refine ⟨_, _, step_of_input hsched, step_of_input (e := .chunk bytes) (later := later) ?_, fun a => ?_⟩
  · exact State.chunkEvent_schedule (s := s₁) hpending bytes
  · exact State.chunkEvent_twice_read (s := s₁) harb hpending later a

/-- Settles O49: the accepted chunk has the instruction in the store, where the next step finds it. -/
theorem chunkIsSeenByTheNextFetch : Obligations.ChunkIsSeenByTheNextFetch := by
  intro s pc0 lo hi i hmode hpc harb hpending hwf hsched hlen hoffset hfit
  obtain ⟨-, -, -, haccept⟩ := applyChunk s _ _ hsched (by simp [hmode]) hpending
  obtain ⟨m, hstep, hread, -⟩ := haccept harb (by simp) (show (encode i).length + 1 + 1 ≤ 256 by omega)
    (by simpa [hoffset] using hfit)
  let t : State := { s with schedule := [], mem := m, stage := List.replicate 256 0, stageLen := 0 }
  have hholds : t.holds pc0 (encode i) := ⟨hfit, fun k => hoffset ▸ hread k.val k.isLt⟩
  obtain ⟨u, hu⟩ := exec_total i (s := t) hpc
  exact ⟨t, u, hstep, (storedInstructionRuns t pc0 i ⟨hmode, hpc, harb, rfl⟩ hwf hholds).trans hu, hu⟩

end Sys2Proof.Machine
end

section
/-! The Loader under `ARB = racy` (20_memory.md rule R45; logs 13, 14). -/

namespace Sys2Proof.Machine

/-- `cells` are left to write: the staging buffer holds `stage`, `len` bytes of it, or is clear where none is left. -/
def StagedAs (t : State) (cells : List Host.Cell) (stage : List Byte) (len : Nat) : Prop :=
  t.pending = cells ∧ (cells ≠ [] → t.stage = stage ∧ t.stageLen = len) ∧
    (cells = [] → t.stage = List.replicate 256 0 ∧ t.stageLen = 0)

/-- From `s` to `t` one byte of the store is written, and nothing but it and the Loader's own parts changes. -/
def WroteByte (s t : State) (a : Nat) (b : Byte) : Prop :=
  t = { s with mem := t.mem, pending := t.pending, stage := t.stage, stageLen := t.stageLen } ∧
    t.mem.read a = b ∧ ∀ a', a' ≠ a → t.mem.read a' = s.mem.read a'

theorem State.clearStageIfDone_stagedAs (s : State) : StagedAs s.clearStageIfDone s.pending s.stage s.stageLen := by
  obtain ⟨hp, h⟩ | ⟨hp, h⟩ := s.clearStageIfDone_cases
  · exact ⟨s.clearStageIfDone_pending, fun hne => absurd hp hne, fun _ => by rw [h]; exact ⟨rfl, rfl⟩⟩
  · exact ⟨s.clearStageIfDone_pending, fun _ => by rw [h]; exact ⟨rfl, rfl⟩, fun hnil => absurd hnil hp⟩

theorem State.loaderWrite_of_getElem? {s : State} {k a : Nat} {b : Byte} (hmode : s.mode ≠ .faulted)
    (hk : s.pending[k]? = some (a, b)) :
    s.loaderWrite k = ((s.writeByte a b).setPending (s.pending.eraseIdx k)).clearStageIfDone := by
  simp only [State.loaderWrite, if_neg hmode, hk]

theorem State.loaderWrite_of_none {s : State} {k : Nat} (hk : s.pending[k]? = none) : s.loaderWrite k = s := by
  obtain h | ⟨a, b, -, hk', -⟩ := s.loaderWrite_cases k
  · exact h
  · cases hk.symm.trans hk'

/-- A Loader action that names a byte still to be written writes it and no other. -/
theorem State.loaderWrite_effect {s : State} {k a : Nat} {b : Byte} (hmode : s.mode ≠ .faulted)
    (hk : s.pending[k]? = some (a, b)) :
    WroteByte s (s.loaderWrite k) a b ∧ StagedAs (s.loaderWrite k) (s.pending.eraseIdx k) s.stage s.stageLen := by
  let done := (s.writeByte a b).setPending (s.pending.eraseIdx k)
  rw [State.loaderWrite_of_getElem? hmode hk]
  have hmem : done.clearStageIfDone.mem = s.mem.write a b := done.clearStageIfDone_mem
  refine ⟨⟨?_, ?_, fun a' ha' => ?_⟩, done.clearStageIfDone_stagedAs⟩
  · obtain ⟨-, h⟩ | ⟨-, h⟩ := done.clearStageIfDone_cases <;> rw [h] <;> rfl
  · rw [hmem, Memory.read_write_same]
  · rw [hmem, Memory.read_write_of_ne _ _ ha']

/-- An accepted chunk is staged, every byte of it still to be written. -/
theorem State.applyChunk_racy_effect {s : State} {bytes : List Byte} (harb : s.arb = .racy) (h2 : 2 ≤ bytes.length)
    (h256 : bytes.length ≤ 256) (hfit : chunkOffset bytes + (bytes.length - 2) ≤ s.progMem) :
    s.applyChunk bytes = { s with
      pending := (s.applyChunk bytes).pending
      stage := (s.applyChunk bytes).stage
      stageLen := (s.applyChunk bytes).stageLen } ∧
    StagedAs (s.applyChunk bytes) (cellsFrom (chunkOffset bytes) (bytes.drop 2))
      (bytes ++ s.stage.drop bytes.length) bytes.length := by
  let staged := (s.stageChunk bytes).setPending (cellsFrom (chunkOffset bytes) (bytes.drop 2))
  rw [State.applyChunk_racy harb h2 h256 hfit]
  refine ⟨?_, staged.clearStageIfDone_stagedAs⟩
  obtain ⟨-, h⟩ | ⟨-, h⟩ := staged.clearStageIfDone_cases <;> rw [h] <;> rfl

/-- Settles O50: a chunk's acceptance, a Loader action that names a byte and one that names none, and a chunk that has
to wait, whose turn is such an action. -/
theorem racyLoaderWritesByteByByte : Obligations.RacyLoaderWritesByteByByte := by
  unfold Obligations.RacyLoaderWritesByteByByte
  intro stagedAs wrote
  refine ⟨fun s bytes later hsched hmode harb hpending h2 h256 hfit => ?_,
    fun s k a b later hsched hmode hk => ?_, fun s k later hsched hk => ?_,
    fun s bytes a b rest later hsched hmode hpending => ?_⟩
  · obtain ⟨hframe, hcells, hstage, hclear⟩ :=
      State.applyChunk_racy_effect (s := s.setSchedule later) (bytes := bytes) harb h2 h256 hfit
    refine ⟨_, step_of_chunk hsched hmode hpending, hframe, ⟨rfl, hcells ▸ hstage, hcells ▸ hclear⟩, ?_, fun k hk => ?_⟩
    · rw [hcells, cellsFrom_length, List.length_drop]
    · rw [hcells]
      exact cellsFrom_getElem? _ _ k hk
  · obtain ⟨hwrote, hstaged⟩ := State.loaderWrite_effect (s := s.setSchedule later) hmode hk
    exact ⟨_, step_of_loader hsched, hwrote, hstaged⟩
  · rw [step_of_loader hsched, State.loaderWrite_of_none (s := s.setSchedule later) hk]
    rfl
  · have hne : s.pending ≠ [] := by simp [hpending]
    obtain ⟨hwrote, hstaged⟩ := State.loaderWrite_effect (s := s) (k := 0) hmode (by rw [hpending]; rfl)
    have hstep : step s = .next (s.loaderWrite 0) := by
      rw [step_of_input hsched, State.inputEvent, State.chunkEvent,
        if_neg (show (s.setSchedule later).mode ≠ .faulted from hmode),
        if_neg (show (s.setSchedule later).pending ≠ [] from hne), State.setSchedule_schedule, ← hsched]
      rfl
    rw [hpending] at hstaged
    exact ⟨_, hstep, hwrote, hstaged⟩

/-- A Loader action leaves each byte as it was or makes it one of those to be written. -/
theorem State.loaderWrite_read (s : State) (k a : Nat) :
    (s.loaderWrite k).mem.read a = s.mem.read a ∨ (a, (s.loaderWrite k).mem.read a) ∈ s.pending := by
  obtain h | ⟨a', b, hmode, hk, -⟩ := s.loaderWrite_cases k
  · exact .inl (by rw [h])
  · obtain ⟨⟨-, hread, hother⟩, -⟩ := State.loaderWrite_effect hmode hk
    by_cases ha : a = a'
    · subst ha
      exact .inr (hread.symm ▸ List.mem_of_getElem? hk)
    · exact .inl (hother a ha)

/-- Under `racy` a chunk's own turn writes at most one byte of the chunk before it. -/
theorem State.chunkEvent_read {s : State} (harb : s.arb = .racy) (bytes : List Byte) (a : Nat) :
    (s.chunkEvent bytes).mem.read a = s.mem.read a ∨ (a, (s.chunkEvent bytes).mem.read a) ∈ s.pending := by
  obtain ⟨-, h⟩ | ⟨-, -, h⟩ | ⟨-, -, h⟩ := s.chunkEvent_cases bytes
  · exact .inl (by rw [h])
  · obtain ⟨f, -, h'⟩ | ⟨-, -, offset, -, ⟨hlocked, -⟩ | ⟨-, h'⟩⟩ := s.applyChunk_cases bytes
    · exact .inl (by simp [h, h'])
    · cases harb.symm.trans hlocked
    · exact .inl (by simp [h, h'])
  · rw [h]
    exact (s.setSchedule (.input (.chunk bytes) :: s.schedule)).loaderWrite_read 0 a

/-- Settles O51: by the turn that is taken, of which only the Loader's and a chunk's write. -/
theorem racyBytesAreNeverInvented : Obligations.RacyBytesAreNeverInvented := by
  intro s t a harb h hreset
  obtain ⟨-, hmove⟩ | ⟨k, later, -, rfl⟩ | ⟨e, later, hsched, rfl⟩ := step_cases h
  · exact .inl (by rw [(State.interpMove_sameStore hmove).mem]; rfl)
  · exact (s.setSchedule later).loaderWrite_read k a
  · have he : e ≠ .reset := fun he => hreset later (he ▸ hsched)
    by_cases hchunk : ∃ bytes, e = .chunk bytes
    · obtain ⟨bytes, rfl⟩ := hchunk
      exact State.chunkEvent_read (s := s.setSchedule later) harb bytes a
    · have hmem := (s.setSchedule later).inputEvent_mem he fun bytes he => hchunk ⟨bytes, he⟩
      exact .inl (by rw [hmem]; rfl)

end Sys2Proof.Machine
end

section
/-! The byte-by-byte Interpreter of `ARB = racy` (20_memory.md rule R45), and that left alone it does what the one-step
Interpreter does. -/

namespace Sys2Proof.Machine

section
variable {s : State} {f : Fetching}

theorem State.racyMove_of_ok {i : Instr} {rest : List Byte} (h : decode f.bytes = .ok (i, rest)) :
    s.racyMove f = exec i { s with pc := .addr f.pc0, fetching := none } := by
  simp only [State.racyMove, h]

theorem State.racyMove_of_fits {off n : Nat} (h : decode f.bytes = .error (.short off n))
    (hfit : f.pc0 + off + n ≤ s.progMem) :
    s.racyMove f = .next { s with
      fetching := some ⟨f.pc0, f.bytes ++ [s.mem.read (f.pc0 + f.bytes.length)]⟩
      pc := .addr (f.pc0 + fieldsDone (f.bytes ++ [s.mem.read (f.pc0 + f.bytes.length)])) } := by
  simp only [State.racyMove, h, if_neg (Nat.not_lt.2 hfit)]

theorem State.racyMove_of_out {off n : Nat} (h : decode f.bytes = .error (.short off n))
    (hout : f.pc0 + off + n > s.progMem) : s.racyMove f = .next (s.fetchFault f.pc0 (.short off n)) := by
  simp only [State.racyMove, h, if_pos hout]

end

/-- The Interpreter's action under `racy`, on what is fetched so far. -/
theorem step_of_racy {s : State} {pc : Nat} (hmode : s.mode = .running) (hpc : s.pc = .addr pc) (harb : s.arb = .racy)
    (hturn : s.schedule = [] ∨ ∃ later, s.schedule = .interp :: later) :
    step s = (s.setSchedule s.schedule.tail).racyMove (s.fetchingFrom pc) := by
  rw [step_of_interp hturn]
  exact State.interpMove_racy hmode hpc harb

/-- A proper part of an instruction's encoding lacks a field that the encoding has. -/
theorem decode_incomplete {i : Instr} (hwf : i.wf = true) {bytes more : List Byte} (henc : encode i = bytes ++ more)
    (hmore : more ≠ []) :
    ∃ off n, decode bytes = .error (.short off n) ∧ off + n ≤ (encode i).length := by
  cases hd : decode bytes with
  | ok r =>
    obtain ⟨own, hbytes, hown⟩ := reads_decode.sound hd
    have hwhole := decodeEncodeRoundTrip i [] hwf
    rw [List.append_nil, henc, hbytes, List.append_assoc, reads_decode.complete hown] at hwhole
    injection hwhole with hpair
    injection hpair with _ hnil
    exact absurd (List.append_eq_nil_iff.1 hnil).2 hmore
  | error e =>
    obtain ⟨off, n, rfl, -⟩ := decodeFailsOnlyForMissingBytes _ _ hd
    have := reads_decode.needed hd ⟨hwf, henc.symm⟩
    rw [← henc] at this
    exact ⟨off, n, rfl, by omega⟩

/-- A racy Interpreter of `s` with these bytes of the instruction at `pc0` fetched. -/
def State.midFetch (s : State) (pc0 : Nat) (bytes : List Byte) : State :=
  { s with pc := .addr (pc0 + fieldsDone bytes), fetching := some ⟨pc0, bytes⟩ }

/-- An action does not go by where `pc` and the record stood, but by what is fetched. -/
theorem State.racyMove_midFetch (s : State) (pc0 : Nat) (bytes : List Byte) (f : Fetching) :
    (s.midFetch pc0 bytes).racyMove f = s.racyMove f := rfl

section
variable {s : State} {pc0 : Nat} {i : Instr}

/-- One action reads the next byte of a stored instruction. -/
theorem State.racyMove_reads (hwf : i.wf = true) (hholds : s.holds pc0 (encode i)) {bytes more : List Byte} {b : Byte}
    (henc : encode i = bytes ++ b :: more) : s.racyMove ⟨pc0, bytes⟩ = .next (s.midFetch pc0 (bytes ++ [b])) := by
  obtain ⟨off, n, hdecode, hlen⟩ := decode_incomplete hwf henc (List.cons_ne_nil b more)
  obtain ⟨hfit, hread⟩ := hholds
  have hb : s.mem.read (pc0 + bytes.length) = b := by
    have hread' := hread ⟨bytes.length, by simp [henc]⟩
    simpa [henc] using hread'
  rw [State.racyMove_of_fits hdecode (by simp only; omega), hb]
  rfl

/-- The actions that are left once some bytes are fetched: one for each byte that is not, and one that executes. -/
theorem core_run_racy (hwf : i.wf = true) (hholds : s.holds pc0 (encode i))
    (hpc : s.pc = .addr pc0) (hfetch : s.fetching = none) (harb : s.arb = .racy) (hmode : s.mode = .running)
    (hsched : s.schedule = []) {t : State} (ht : exec i s = .next t) (more : List Byte) :
    ∀ (bytes : List Byte) (u : State), encode i = bytes ++ more → step u = s.racyMove ⟨pc0, bytes⟩ →
      Sys2Proof.core.run (more.length + 1) u = .next t := by
  induction more with
  | nil =>
    intro bytes u henc hstep
    have hdecode : decode bytes = .ok (i, []) := by
      simpa [henc] using decodeEncodeRoundTrip i [] hwf
    have hsame : { s with pc := .addr pc0, fetching := none } = s := by rw [← hpc, ← hfetch]
    rw [State.racyMove_of_ok hdecode, hsame, ht] at hstep
    exact core_run_succ hstep 0
  | cons b more ih =>
    intro bytes u henc hstep
    rw [State.racyMove_reads hwf hholds henc] at hstep
    rw [core_run_succ hstep]
    refine ih (bytes ++ [b]) _ (by rw [henc, List.append_assoc, List.singleton_append]) ?_
    have hmid := State.interpMove_racy (s := s.midFetch pc0 (bytes ++ [b])) hmode rfl harb
    rw [step_of_nil (s := s.midFetch pc0 (bytes ++ [b])) hsched, hmid]
    exact State.racyMove_midFetch s pc0 _ _

end

/-- Settles O52: one action by what is fetched so far, and an undisturbed fetch by induction on the bytes still to be
read. -/
theorem racyUndisturbedIsLocked : Obligations.RacyUndisturbedIsLocked := by
  constructor
  · intro s pc f hmode hpc harb hturn hf
    have hfrom : s.fetchingFrom pc = f := by
      obtain hsome | ⟨hnone, rfl⟩ := hf
      · rw [State.fetchingFrom, hsome, Option.getD_some]
      · rw [State.fetchingFrom, hnone, Option.getD_none]
    rw [step_of_racy hmode hpc harb hturn, hfrom]
    refine ⟨fun i rest hdecode => State.racyMove_of_ok hdecode, fun off n hdecode => ⟨fun hfit => ?_, fun hout => ?_⟩⟩
    · exact State.racyMove_of_fits (s := s.setSchedule s.schedule.tail) hdecode hfit
    · exact State.racyMove_of_out (s := s.setSchedule s.schedule.tail) hdecode hout
  · intro s pc0 i hmode hpc harb hsched hfetch hwf hholds
    obtain ⟨t, ht⟩ := exec_total i hpc
    have hstep : step s = s.racyMove ⟨pc0, []⟩ := by
      rw [step_of_nil hsched, State.interpMove_racy hmode hpc harb, State.fetchingFrom, hfetch, Option.getD_none]
    exact ⟨t, ht, core_run_racy hwf hholds hpc hfetch harb hmode hsched ht (encode i) [] s rfl hstep⟩

end Sys2Proof.Machine
end

section
/-! The invariant of the whole block (`State.Inv`): the reset state has it, every agent's move keeps it, and under it
the block always has a next state. -/

namespace Sys2Proof.Machine

theorem resetWith_inv {progMem : Nat} (arb : Arb) (schedule : List Turn) (hmin : 1 ≤ progMem) (hmax : progMem ≤ 65536) :
    (State.resetWith progMem arb schedule).Inv where
  capacity := ⟨hmin, hmax⟩
  memCanonical := rfl
  memBounded := nofun
  unstartedPc _ := rfl
  unsetMode _ := .inl rfl
  faultedIff := ⟨nofun, fun h => absurd rfl h⟩
  pcRange := nofun
  stageSize := List.length_replicate
  stageClear _ := ⟨rfl, rfl⟩
  pendingBounded := nofun
  lockedAtomic _ := ⟨rfl, rfl⟩
  fetchingInside := nofun
  outWf := nofun

/-- Settles O55: `State.reset` is such a reset state. -/
theorem resetSatisfiesInvariant : Obligations.ResetSatisfiesInvariant :=
  ⟨resetWith_inv _ _ (by decide) (by decide), fun _ arb schedule => resetWith_inv arb schedule⟩

theorem State.Inv.progMem_le {s : State} (h : s.Inv) : s.progMem ≤ 65536 := h.capacity.2

/-- Whose turn comes is no part of the invariant. -/
theorem State.Inv.setSchedule {s : State} (h : s.Inv) (later : List Turn) : (s.setSchedule later).Inv where
  capacity := h.capacity
  memCanonical := h.memCanonical
  memBounded := h.memBounded
  unstartedPc := h.unstartedPc
  unsetMode := h.unsetMode
  faultedIff := h.faultedIff
  pcRange := h.pcRange
  stageSize := h.stageSize
  stageClear := h.stageClear
  pendingBounded := h.pendingBounded
  lockedAtomic := h.lockedAtomic
  fetchingInside := h.fetchingInside
  outWf := h.outWf

/-- Outside Faulted no fault is recorded. -/
theorem State.Inv.fault_none {s : State} (h : s.Inv) (hmode : s.mode ≠ .faulted) : s.fault = none := by
  by_contra hfault
  exact hmode (h.faultedIff.2 hfault)

/-- Outside Running nothing is being fetched. -/
theorem State.Inv.fetching_none {s : State} (h : s.Inv) (hmode : s.mode ≠ .running) : s.fetching = none := by
  cases hf : s.fetching with
  | none => rfl
  | some f => exact absurd (h.fetchingInside f hf).1 hmode

/-- A move of the Interpreter leaves the store and the Loader's parts; what is left of the invariant is about `pc`,
`mode`, `fault`, the record of fetched bytes and the output. -/
theorem State.Inv.of_sameStore {s t : State} (h : s.Inv) (hsame : s.SameStore t) (hunstarted : t.mode ≠ .unstarted)
    (hpc : ∃ a, t.pc = .addr a ∧ a ≤ 65536) (hfaulted : t.mode = .faulted ↔ t.fault ≠ none)
    (hlocked : s.arb = .locked → t.fetching = none)
    (hfetch : ∀ f, t.fetching = some f →
      t.mode = .running ∧ t.pc = .addr (f.pc0 + fieldsDone f.bytes) ∧ f.pc0 + f.bytes.length ≤ s.progMem)
    (hout : ∀ e ∈ t.out, e.wf = true) : t.Inv where
  capacity := hsame.progMem ▸ h.capacity
  memCanonical := hsame.mem ▸ h.memCanonical
  memBounded := by rw [hsame.mem, hsame.progMem]; exact h.memBounded
  unstartedPc hm := absurd hm hunstarted
  unsetMode hu := by
    obtain ⟨a, ha, -⟩ := hpc
    cases hu.symm.trans ha
  faultedIff := hfaulted
  pcRange a ha := by
    obtain ⟨a', ha', hle⟩ := hpc
    cases ha.symm.trans ha'
    exact hle
  stageSize := hsame.stage ▸ h.stageSize
  stageClear := by rw [hsame.stage, hsame.stageLen, hsame.pending]; exact h.stageClear
  pendingBounded := by rw [hsame.pending, hsame.progMem]; exact h.pendingBounded
  lockedAtomic := by
    rw [hsame.arb, hsame.pending]
    exact fun harb => ⟨(h.lockedAtomic harb).1, hlocked harb⟩
  fetchingInside := by rw [hsame.progMem]; exact hfetch
  outWf := hout

/-- A move of the Loader that raises no fault leaves all that is not its own but the store; what is left of the
invariant is about these. -/
theorem State.Inv.of_sameControl {s t : State} (h : s.Inv) (hpc : t.pc = s.pc) (hmode : t.mode = s.mode)
    (hfault : t.fault = s.fault) (hprog : t.progMem = s.progMem) (harb : t.arb = s.arb)
    (hfetch : t.fetching = s.fetching) (hout : t.out = s.out) (hwf : t.mem.wf = true)
    (hbound : ∀ c ∈ t.mem, c.1 < s.progMem) (hsize : t.stage.length = Config.stageCap)
    (hclear : t.pending = [] → t.stage = clearedStage ∧ t.stageLen = 0)
    (hpending : ∀ c ∈ t.pending, c.1 < s.progMem) (hlocked : s.arb = .locked → t.pending = []) : t.Inv where
  capacity := hprog ▸ h.capacity
  memCanonical := hwf
  memBounded := by rw [hprog]; exact hbound
  unstartedPc := by rw [hmode, hpc]; exact h.unstartedPc
  unsetMode := by rw [hmode, hpc]; exact h.unsetMode
  faultedIff := by rw [hmode, hfault]; exact h.faultedIff
  pcRange := by rw [hpc]; exact h.pcRange
  stageSize := hsize
  stageClear := hclear
  pendingBounded := by rw [hprog]; exact hpending
  lockedAtomic := by
    rw [harb, hfetch]
    exact fun hl => ⟨hlocked hl, (h.lockedAtomic hl).2⟩
  fetchingInside := by rw [hfetch, hmode, hpc, hprog]; exact h.fetchingInside
  outWf := by rw [hout]; exact h.outWf

/-! ### The Interpreter -/

theorem fieldsDone_le (bytes : List Byte) : fieldsDone bytes ≤ bytes.length := by
  unfold fieldsDone
  cases hd : decode bytes with
  | ok r => exact Nat.sub_le _ _
  | error e =>
    obtain ⟨off, n, rfl, -, hle, -⟩ := decodeFailsOnlyForMissingBytes _ _ hd
    exact hle

/-- The bytes of `i`, the instruction at `pc0`, are what the Interpreter has before it: in the store at `pc` under
`locked`, among the bytes it has fetched under `racy`. -/
def State.HasBefore (s : State) (pc0 : Nat) (i : Instr) : Prop :=
  (s.arb = .locked ∧ s.pc = .addr pc0 ∧ ∃ rest, s.stream pc0 = encode i ++ rest) ∨
  (s.arb = .racy ∧ ∃ f rest, s.fetching = some f ∧ f.pc0 = pc0 ∧ f.bytes = encode i ++ rest)

/-- Such an instruction lies whole below the end of the store. -/
theorem State.HasBefore.fits {s : State} (h : s.Inv) {pc0 : Nat} {i : Instr} (hi : s.HasBefore pc0 i) :
    pc0 + (encode i).length ≤ s.progMem := by
  have hpos := encode_length_pos i
  obtain ⟨-, -, rest, hs⟩ | ⟨-, f, rest, hf, rfl, hs⟩ := hi
  · have hlen := congrArg List.length hs
    rw [s.stream_length, List.length_append] at hlen
    omega
  · obtain ⟨-, -, hin⟩ := h.fetchingInside f hf
    rw [hs, List.length_append] at hin
    omega

/-- Everything the Interpreter's move can do under the invariant: nothing outside Running, the instruction it has before
it, a fetch fault with `pc` in its range, or a racy read inside the store. -/
theorem State.Inv.interpMove_cases {s t : State} (h : s.Inv) (hmove : s.interpMove = .next t) :
    (s.mode ≠ .running ∧ t = s) ∨ (s.mode = .running ∧ ∃ pc0,
      (∃ i, i.wf = true ∧ s.HasBefore pc0 i ∧ exec i { s with pc := .addr pc0, fetching := none } = .next t) ∨
      (∃ off n, pc0 + off ≤ 65536 ∧ t = s.raiseAt (pc0 + off) (.fetchOutOfBounds pc0 (pc0 + off) n)) ∨
      (∃ bytes, s.arb = .racy ∧ pc0 + bytes.length ≤ s.progMem ∧ t = s.midFetch pc0 bytes)) := by
  have hcap := h.progMem_le
  obtain hidle | ⟨pc0, hmode, hpc, harb, hmove⟩ | ⟨pc, hmode, hpc, harb, hmove⟩ := State.interpMove_eq_next hmove
  · exact .inl hidle
  · refine .inr ⟨hmode, pc0, ?_⟩
    obtain ⟨i, rest, hd, hexec⟩ | ⟨e, he, rfl⟩ := State.lockedMove_eq_next hmove
    · obtain ⟨hbytes, hwf⟩ := decodedBytesAreTheEncoding _ _ _ hd
      have hsame : { s with pc := .addr pc0, fetching := none } = s := by
        rw [← hpc, ← (h.lockedAtomic harb).2]
      exact .inl ⟨i, hwf, .inl ⟨harb, hpc, rest, hbytes⟩, hsame ▸ hexec⟩
    · obtain ⟨off, n, rfl, -, -, hoff⟩ := stream_decode_error_bounds he
      have hrange := h.pcRange pc0 hpc
      exact .inr (.inl ⟨off, n, by omega, rfl⟩)
  · refine .inr ⟨hmode, (s.fetchingFrom pc).pc0, ?_⟩
    have hin : (s.fetchingFrom pc).pc0 + (s.fetchingFrom pc).bytes.length ≤ 65536 := by
      cases hf : s.fetching with
      | none => simpa [State.fetchingFrom, hf] using h.pcRange pc hpc
      | some f =>
        obtain ⟨-, -, hle⟩ := h.fetchingInside f hf
        simpa [State.fetchingFrom, hf] using hle.trans hcap
    obtain ⟨i, rest, hd, hexec⟩ | ⟨e, he, rfl⟩ | ⟨off, n, hd, hfit, rfl⟩ := State.racyMove_eq_next hmove
    · obtain ⟨hbytes, hwf⟩ := decodedBytesAreTheEncoding _ _ _ hd
      refine .inl ⟨i, hwf, .inr ⟨harb, s.fetchingFrom pc, rest, ?_, rfl, hbytes⟩, hexec⟩
      cases hf : s.fetching with
      | none => simp [State.fetchingFrom, hf] at hd
      | some f => simp [State.fetchingFrom, hf]
    · obtain ⟨off, n, rfl, -, hoff, -⟩ := decodeFailsOnlyForMissingBytes _ _ he
      exact .inr (.inl ⟨off, n, by omega, rfl⟩)
    · obtain ⟨_, _, he, -, -, hlt⟩ := decodeFailsOnlyForMissingBytes _ _ hd
      cases he
      exact .inr (.inr ⟨_, harb, by rw [List.length_append, List.length_singleton]; omega, rfl⟩)

/-- An executed instruction keeps the invariant. -/
theorem exec_inv {s t : State} (h : s.Inv) (hmode : s.mode = .running) {i : Instr} (hwf : i.wf = true) {pc0 : Nat}
    (hfit : pc0 + (encode i).length ≤ 65536) (hexec : exec i { s with pc := .addr pc0, fetching := none } = .next t) :
    t.Inv := by
  obtain ⟨hmem, hstage, hlen, hpending, hprog, harb, hsched⟩ := exec_sameStore hexec
  have hsame : s.SameStore t := ⟨hmem, hstage, hlen, hpending, hprog, harb, hsched⟩
  have hnofault : s.fault = none := h.fault_none (by simp [hmode])
  have hpc := exec_pc_le rfl hexec hfit
  have hout : ∀ e ∈ t.out, e.wf = true := by
    intro e he
    rw [exec_out hexec, List.mem_append] at he
    exact he.elim (h.outWf e) (emitted_wf _ hwf)
  have hend : t.fetching = none ∧ t.mode ≠ .unstarted ∧ (t.mode = .faulted ↔ t.fault ≠ none) := by
    obtain ⟨hfault, hfetch, hm⟩ | ⟨_, _, _, -, -, -, rfl⟩ := exec_fault hexec
    · have hfault : t.fault = none := hfault.trans hnofault
      have hm : t.mode = .running ∨ t.mode = .halted ∨ t.mode = .waitSleep ∨ t.mode = .waitSync := by
        obtain hm | ⟨-, hm⟩ | ⟨-, hm⟩ | ⟨-, hm⟩ := hm
        · exact .inl (hm.trans hmode)
        · exact .inr (.inl hm)
        · exact .inr (.inr (.inl hm))
        · exact .inr (.inr (.inr hm))
      refine ⟨hfetch, ?_⟩
      obtain hm | hm | hm | hm := hm <;> simp [hm, hfault]
    · exact ⟨rfl, nofun, fun _ => nofun, fun _ => rfl⟩
  obtain ⟨hfetch, hunstarted, hfaulted⟩ := hend
  exact h.of_sameStore hsame hunstarted hpc hfaulted (fun _ => hfetch) (by simp [hfetch]) hout

theorem State.Inv.interpMove {s t : State} (h : s.Inv) (hmove : s.interpMove = .next t) : t.Inv := by
  have hsame := State.interpMove_sameStore hmove
  obtain ⟨-, rfl⟩ | ⟨hmode, pc0, ⟨i, hwf, hi, hexec⟩ | ⟨off, n, hle, rfl⟩ | ⟨bytes, harb, hin, rfl⟩⟩ :=
    h.interpMove_cases hmove
  · exact h
  · exact exec_inv h hmode hwf ((hi.fits h).trans h.progMem_le) hexec
  · exact h.of_sameStore hsame nofun ⟨_, rfl, hle⟩ ⟨fun _ => nofun, fun _ => rfl⟩ (fun _ => rfl) nofun h.outWf
  · have hdone := fieldsDone_le bytes
    have hcap := h.progMem_le
    refine h.of_sameStore hsame ?_ ⟨_, rfl, by omega⟩ h.faultedIff (fun hl => ?_) ?_ h.outWf
    · exact fun hm => Mode.noConfusion (hmode.symm.trans hm)
    · cases harb.symm.trans hl
    · rintro f ⟨⟩
      exact ⟨hmode, rfl, hin⟩

/-! ### The Loader -/

theorem State.Inv.loaderWrite {s : State} (h : s.Inv) (k : Nat) : (s.loaderWrite k).Inv := by
  obtain hsame | ⟨a, b, hmode, hk, -⟩ := s.loaderWrite_cases k
  · rwa [hsame]
  · have hcell := List.mem_of_getElem? hk
    obtain ⟨-, -, -, hout, hpc, hm, hfault, hprog, harb, -, hfetch⟩ := s.loaderWrite_frame k
    obtain ⟨-, hpending, hstage, hclear⟩ := State.loaderWrite_effect hmode hk
    have hmem : (s.loaderWrite k).mem = s.mem.write a b := by
      rw [State.loaderWrite_of_getElem? hmode hk]
      simp
    refine h.of_sameControl hpc hm hfault hprog harb hfetch hout (State.loaderWrite_mem_wf h.memCanonical k)
      (fun c hc => ?_) ?_ (fun hnil => hclear (hpending.symm.trans hnil)) (fun c hc => ?_) (fun hl => ?_)
    · rw [hmem] at hc
      obtain hca | hc := Memory.mem_write hc
      · exact hca ▸ h.pendingBounded _ hcell
      · exact h.memBounded c hc
    · by_cases hnil : s.pending.eraseIdx k = []
      · rw [(hclear hnil).1]
        exact List.length_replicate
      · rw [(hstage hnil).1]
        exact h.stageSize
    · rw [hpending] at hc
      exact h.pendingBounded c (List.mem_of_mem_eraseIdx hc)
    · rw [(h.lockedAtomic hl).1] at hcell
      cases hcell

theorem State.Inv.raiseLoader {s : State} (h : s.Inv) (f : FaultRecord) : (s.raiseLoader f).Inv where
  capacity := h.capacity
  memCanonical := h.memCanonical
  memBounded := h.memBounded
  unstartedPc := nofun
  unsetMode _ := .inr rfl
  faultedIff := ⟨fun _ => nofun, fun _ => rfl⟩
  pcRange := h.pcRange
  stageSize := List.length_replicate
  stageClear _ := ⟨rfl, rfl⟩
  pendingBounded := h.pendingBounded
  lockedAtomic harb := ⟨(h.lockedAtomic harb).1, rfl⟩
  fetchingInside := nofun
  outWf := h.outWf

theorem State.Inv.applyChunk {s : State} (h : s.Inv) (hpending : s.pending = []) (bytes : List Byte) :
    (s.applyChunk bytes).Inv := by
  obtain ⟨f, -, hrejected⟩ | ⟨h2, hcap, offset, hfit, ⟨harb, hwritten⟩ | ⟨harb, hstaged⟩⟩ := s.applyChunk_cases bytes
  · exact hrejected ▸ h.raiseLoader f
  · rw [hwritten]
    refine h.of_sameControl rfl rfl rfl rfl rfl rfl rfl (Memory.wf_writeBytes _ h.memCanonical offset)
      (fun c hc => ?_) List.length_replicate (fun _ => ⟨rfl, rfl⟩) h.pendingBounded fun _ => hpending
    obtain ⟨-, hlt⟩ | hc := Memory.mem_writeBytes _ hc
    · omega
    · exact h.memBounded c hc
  · let staged := (s.stageChunk bytes).setPending (cellsFrom offset (bytes.drop 2))
    obtain ⟨hcells, hstage, hclear⟩ := staged.clearStageIfDone_stagedAs
    have hmem : staged.clearStageIfDone.mem = s.mem := staged.clearStageIfDone_mem
    rw [hstaged]
    refine h.of_sameControl staged.clearStageIfDone_pc staged.clearStageIfDone_mode staged.clearStageIfDone_fault
      staged.clearStageIfDone_progMem staged.clearStageIfDone_arb staged.clearStageIfDone_fetching
      staged.clearStageIfDone_out (hmem ▸ h.memCanonical) (fun c hc => h.memBounded c (hmem ▸ hc)) ?_
      (fun hnil => hclear (hcells.symm.trans hnil)) (fun c hc => ?_) (fun hl => ?_)
    · by_cases hnil : staged.pending = []
      · rw [(hclear hnil).1]
        exact List.length_replicate
      · rw [(hstage hnil).1]
        have hsize := h.stageSize
        simp only [staged, State.setPending_stage, State.stageChunk_stage, List.length_append, List.length_drop]
        omega
    · rw [hcells] at hc
      obtain ⟨-, hlt⟩ := mem_cellsFrom hc
      omega
    · cases harb.symm.trans hl

theorem State.Inv.chunkEvent {s : State} (h : s.Inv) (bytes : List Byte) : (s.chunkEvent bytes).Inv := by
  obtain ⟨-, he⟩ | ⟨-, hpending, he⟩ | ⟨-, -, he⟩ := s.chunkEvent_cases bytes
  · rwa [he]
  · exact he ▸ h.applyChunk hpending bytes
  · exact he ▸ (h.setSchedule _).loaderWrite 0

/-! ### The environment -/

/-- Running is entered, or gone on with, from any mode that has a numeric `pc` and no fault. -/
theorem State.Inv.setMode_running {s : State} (h : s.Inv) (hunstarted : s.mode ≠ .unstarted)
    (hfaulted : s.mode ≠ .faulted) : (s.setMode .running).Inv where
  capacity := h.capacity
  memCanonical := h.memCanonical
  memBounded := h.memBounded
  unstartedPc := nofun
  unsetMode hpc := ((h.unsetMode hpc).elim hunstarted hfaulted).elim
  faultedIff := ⟨nofun, fun hf => absurd (h.fault_none hfaulted) hf⟩
  pcRange := h.pcRange
  stageSize := h.stageSize
  stageClear := h.stageClear
  pendingBounded := h.pendingBounded
  lockedAtomic := h.lockedAtomic
  fetchingInside f hf := ⟨rfl, (h.fetchingInside f hf).2⟩
  outWf := h.outWf

theorem State.Inv.runEvent {s : State} (h : s.Inv) : s.runEvent.Inv := by
  obtain ⟨hm, he⟩ | ⟨hm, he⟩ | ⟨-, -, he⟩ := s.runEvent_cases
  · have hfetch := h.fetching_none (by simp [hm])
    rw [he]
    exact h.of_sameStore ⟨rfl, rfl, rfl, rfl, rfl, rfl, rfl⟩ nofun ⟨0, rfl, Nat.zero_le _⟩
      ⟨nofun, fun hf => absurd (h.fault_none (by simp [hm])) hf⟩ (fun _ => hfetch) (by simp [hfetch]) h.outWf
  · exact he ▸ h.setMode_running (by simp [hm]) (by simp [hm])
  · rwa [he]

theorem State.Inv.inputEvent {s : State} (h : s.Inv) (e : Input) : (s.inputEvent e).Inv := by
  cases e with
  | reset => exact resetWith_inv _ _ h.capacity.1 h.capacity.2
  | run => exact h.runEvent
  | chunk bytes => exact h.chunkEvent bytes
  | wake =>
    obtain ⟨hm, he⟩ | ⟨-, he⟩ := s.wakeEvent_cases
    · exact (congrArg State.Inv he).mpr (h.setMode_running (by simp [hm]) (by simp [hm]))
    · exact (congrArg State.Inv he).mpr h
  | syncDone =>
    obtain ⟨hm, he⟩ | ⟨-, he⟩ := s.syncDoneEvent_cases
    · exact (congrArg State.Inv he).mpr (h.setMode_running (by simp [hm]) (by simp [hm]))
    · exact (congrArg State.Inv he).mpr h

/-- Settles O56: by the turn that is taken, each agent's move keeps the invariant. -/
theorem stepKeepsInvariant : Obligations.StepKeepsInvariant := by
  intro s t h hstep
  obtain ⟨-, hmove⟩ | ⟨k, later, -, rfl⟩ | ⟨e, later, -, rfl⟩ := step_cases hstep
  · exact (h.setSchedule _).interpMove hmove
  · exact (h.setSchedule later).loaderWrite k
  · exact (h.setSchedule later).inputEvent e

/-! ### A next state always -/

theorem State.racyMove_total (s : State) (f : Fetching) : ∃ t, s.racyMove f = .next t := by
  cases hd : decode f.bytes with
  | ok r =>
    obtain ⟨t, ht⟩ := exec_total r.1 (s := { s with pc := .addr f.pc0, fetching := none }) rfl
    exact ⟨t, (State.racyMove_of_ok hd).trans ht⟩
  | error e =>
    obtain ⟨off, n, rfl, -⟩ := decodeFailsOnlyForMissingBytes _ _ hd
    by_cases hfit : f.pc0 + off + n ≤ s.progMem
    · exact ⟨_, State.racyMove_of_fits hd hfit⟩
    · exact ⟨_, State.racyMove_of_out hd (Nat.lt_of_not_le hfit)⟩

theorem State.lockedMove_total {s : State} {pc0 : Nat} (hpc : s.pc = .addr pc0) : ∃ t, s.lockedMove pc0 = .next t := by
  cases hd : decode (s.stream pc0) with
  | ok r =>
    obtain ⟨t, ht⟩ := exec_total r.1 hpc
    exact ⟨t, (State.lockedMove_of_decode_ok hd).trans ht⟩
  | error e => exact ⟨_, State.lockedMove_of_decode_error hd⟩

/-- A running Interpreter has a numeric `pc`, so it moves (rule R15). -/
theorem State.Inv.interpMove_total {s : State} (h : s.Inv) : ∃ t, s.interpMove = .next t := by
  by_cases hmode : s.mode = .running
  · cases hpc : s.pc with
    | unset => obtain hm | hm := h.unsetMode hpc <;> cases hmode.symm.trans hm
    | addr pc =>
      cases harb : s.arb with
      | locked => rw [State.interpMove_locked hmode hpc harb]; exact State.lockedMove_total hpc
      | racy => rw [State.interpMove_racy hmode hpc harb]; exact s.racyMove_total _
  · exact ⟨s, State.interpMove_idle hmode⟩

/-- Settles O57: only the Interpreter could be without a next state, and under the invariant it is not. -/
theorem stepAlwaysAnswers : Obligations.StepAlwaysAnswers := by
  intro s h
  cases hsched : s.schedule with
  | nil => rw [step_of_nil hsched]; exact h.interpMove_total
  | cons turn later =>
    cases turn with
    | interp => rw [step_of_cons hsched]; exact (h.setSchedule later).interpMove_total
    | loader k => exact ⟨_, step_of_loader hsched⟩
    | input e => exact ⟨_, step_of_input hsched⟩

end Sys2Proof.Machine
end

section
/-! Runs (70_reset_and_hazards.md rule R132): how a step changes the mode, what starts a run and what ends one. -/

namespace Sys2Proof.Machine

/-! ### The mode after a step -/

/-- An instruction is executed, or a field of it faults, only in Running; and the modes it can leave are these. -/
theorem State.interpMove_mode {s t : State} (h : s.interpMove = .next t) :
    t.mode = s.mode ∨ t.mode = .faulted ∨
      (s.mode = .running ∧ (t.mode = .halted ∨ t.mode = .waitSleep ∨ t.mode = .waitSync)) := by
  obtain ⟨-, rfl⟩ | ⟨pc0, fetching, i, hmode, hexec⟩ | ⟨_, _, _, -, rfl⟩ | ⟨_, _, -, rfl⟩ := State.interpMove_cases h
  · exact .inl rfl
  · obtain hkept | hfaulted | ⟨-, hm⟩ | ⟨-, hm⟩ | ⟨-, hm⟩ := exec_mode hexec
    · exact .inl hkept
    · exact .inr (.inl hfaulted)
    · exact .inr (.inr ⟨hmode, .inl hm⟩)
    · exact .inr (.inr ⟨hmode, .inr (.inl hm)⟩)
    · exact .inr (.inr ⟨hmode, .inr (.inr hm)⟩)
  · exact .inr (.inl rfl)
  · exact .inl rfl

theorem State.chunkEvent_mode (s : State) (bytes : List Byte) :
    (s.chunkEvent bytes).mode = s.mode ∨ (s.chunkEvent bytes).mode = .faulted := by
  obtain ⟨-, h⟩ | ⟨-, -, h⟩ | ⟨-, -, h⟩ := s.chunkEvent_cases bytes
  · exact .inl (by rw [h])
  · obtain ⟨f, -, h'⟩ | ⟨-, -, offset, -, ⟨-, h'⟩ | ⟨-, h'⟩⟩ := s.applyChunk_cases bytes
    · exact .inr (by rw [h, h']; rfl)
    · exact .inl (by rw [h, h']; rfl)
    · exact .inl (by rw [h, h', State.clearStageIfDone_mode]; rfl)
  · obtain ⟨-, -, -, -, -, hmode, -⟩ := (s.setSchedule (.input (.chunk bytes) :: s.schedule)).loaderWrite_frame 0
    exact .inl (h ▸ hmode)

/-- The mode after an input event: a run event starts a run, a completion ends a wait, a reset ends everything. -/
theorem State.inputEvent_mode (s : State) (e : Input) :
    (e = .reset ∧ (s.inputEvent e).mode = .unstarted) ∨ (s.inputEvent e).mode = s.mode ∨
    (s.inputEvent e).mode = .faulted ∨
    (e = .run ∧ (s.mode = .unstarted ∨ s.mode = .halted) ∧ (s.inputEvent e).mode = .running) ∨
    ((s.mode = .waitSleep ∨ s.mode = .waitSync) ∧ (s.inputEvent e).mode = .running) := by
  cases e with
  | reset => exact .inl ⟨rfl, rfl⟩
  | run => obtain ⟨hm, h⟩ | ⟨hm, h⟩ | ⟨-, -, h⟩ := s.runEvent_cases <;> simp [State.inputEvent, *]
  | chunk bytes => exact .inr ((s.chunkEvent_mode bytes).imp_right .inl)
  | wake => obtain ⟨hm, h⟩ | ⟨-, h⟩ := s.wakeEvent_cases <;> simp [State.inputEvent, *]
  | syncDone => obtain ⟨hm, h⟩ | ⟨-, h⟩ := s.syncDoneEvent_cases <;> simp [State.inputEvent, *]

/-- Every way in which a step can change the mode (10_state.md section 7). -/
theorem step_mode {s t : State} (h : step s = .next t) :
    ((∃ later, s.schedule = .input .reset :: later) ∧ t.mode = .unstarted) ∨ t.mode = s.mode ∨ t.mode = .faulted ∨
    (s.mode = .running ∧ (t.mode = .halted ∨ t.mode = .waitSleep ∨ t.mode = .waitSync)) ∨
    ((∃ later, s.schedule = .input .run :: later) ∧ (s.mode = .unstarted ∨ s.mode = .halted) ∧ t.mode = .running) ∨
    ((s.mode = .waitSleep ∨ s.mode = .waitSync) ∧ t.mode = .running) := by
  obtain ⟨-, hmove⟩ | ⟨k, later, -, rfl⟩ | ⟨e, later, hsched, rfl⟩ := step_cases h
  · obtain hkept | hfaulted | hends := State.interpMove_mode hmove
    · exact .inr (.inl hkept)
    · exact .inr (.inr (.inl hfaulted))
    · exact .inr (.inr (.inr (.inl hends)))
  · obtain ⟨-, -, -, -, -, hmode, -⟩ := (s.setSchedule later).loaderWrite_frame k
    exact .inr (.inl hmode)
  · obtain ⟨rfl, hm⟩ | hkept | hfaulted | ⟨rfl, hfrom, hm⟩ | hwait := (s.setSchedule later).inputEvent_mode e
    · exact .inl ⟨⟨later, hsched⟩, hm⟩
    · exact .inr (.inl hkept)
    · exact .inr (.inr (.inl hfaulted))
    · exact .inr (.inr (.inr (.inr (.inl ⟨⟨later, hsched⟩, hfrom, hm⟩))))
    · exact .inr (.inr (.inr (.inr (.inr hwait))))

/-! ### The start -/

/-- The first state of a run. -/
theorem StartsRun.start {s t : State} (h : StartsRun s t) :
    t.mode = .running ∧ (s.mode = .unstarted → t.pc = .addr 0) ∧ (s.mode = .halted → t.pc = s.pc) := by
  obtain ⟨hmode, ⟨later, hsched⟩, hstep⟩ := h
  obtain ⟨hunstarted, hhalted, -⟩ := runEventByMode s later hsched
  obtain hm | hm := hmode
  · cases hstep.symm.trans (hunstarted hm)
    exact ⟨rfl, fun _ => rfl, fun hm' => Mode.noConfusion (hm.symm.trans hm')⟩
  · cases hstep.symm.trans (hhalted hm)
    exact ⟨rfl, fun hm' => Mode.noConfusion (hm.symm.trans hm'), fun _ => rfl⟩

/-- Settles O58: of all the ways to change the mode, the `run` event alone leads into a run. -/
theorem runStartsOnlyByTheRunEvent : Obligations.RunStartsOnlyByTheRunEvent := by
  refine fun s t => ⟨⟨fun ⟨hstep, hout, hin⟩ => ?_, fun hstarts => ?_⟩, StartsRun.start⟩
  · obtain ⟨-, hm⟩ | hkept | hm | ⟨hm, -⟩ | ⟨hrun, hfrom, -⟩ | ⟨hm | hm, -⟩ := step_mode hstep
    · rw [hm] at hin; cases hin
    · rw [hkept, hout] at hin; cases hin
    · rw [hm] at hin; cases hin
    · rw [hm] at hout; cases hout
    · exact ⟨hfrom, hrun, hstep⟩
    · rw [hm] at hout; cases hout
    · rw [hm] at hout; cases hout
  · obtain ⟨hmode, -⟩ := hstarts.start
    obtain ⟨hfrom, -, hstep⟩ := hstarts
    exact ⟨hstep, Mode.inRun_eq_false.2 (hfrom.imp_right .inl), by rw [hmode]; rfl⟩

/-! ### The end -/

/-- The step that halts a run executes an EXIT that the Interpreter has before it. -/
theorem halting_step {s t : State} (h : s.Inv) (hstep : step s = .next t) (hs : s.mode ≠ .halted)
    (ht : t.mode = .halted) : s.mode = .running ∧ ∃ pc0, s.HasBefore pc0 .exit ∧
      t = { s with schedule := s.schedule.tail, pc := .addr (pc0 + 1), mode := .halted, fetching := none } := by
  have hchange : t.mode ≠ s.mode := fun hkept => hs (hkept.symm.trans ht)
  obtain ⟨-, hmove⟩ | ⟨k, later, -, rfl⟩ | ⟨e, later, -, rfl⟩ := step_cases hstep
  · obtain ⟨-, rfl⟩ | ⟨hmode, pc0, ⟨i, -, hi, hexec⟩ | ⟨_, _, -, rfl⟩ | ⟨_, -, -, rfl⟩⟩ :=
      (h.setSchedule _).interpMove_cases hmove
    · exact absurd rfl hchange
    · obtain hhalted | rfl := exec_halts hexec ht
      · exact absurd hhalted hs
      · cases (exec_exit_of_pc rfl).symm.trans hexec
        refine ⟨hmode, pc0, ?_, rfl⟩
        obtain ⟨harb, hpc, rest, hstream⟩ | hracy := hi
        · exact .inl ⟨harb, hpc, rest, (stream_setSchedule s _ pc0).symm.trans hstream⟩
        · exact .inr hracy
    · cases ht
    · exact absurd rfl hchange
  · obtain ⟨-, -, -, -, -, hkept, -⟩ := (s.setSchedule later).loaderWrite_frame k
    exact absurd hkept hchange
  · obtain ⟨-, hm⟩ | hkept | hm | ⟨-, -, hm⟩ | ⟨-, hm⟩ := (s.setSchedule later).inputEvent_mode e
    · cases hm.symm.trans ht
    · exact absurd hkept hchange
    · cases hm.symm.trans ht
    · cases hm.symm.trans ht
    · cases hm.symm.trans ht

/-- Where an EXIT stands before the Interpreter, byte 0x00 lies in the store at `pc`, or was fetched first. -/
theorem State.HasBefore.exit_byte {s : State} {pc0 : Nat} (h : s.HasBefore pc0 .exit) :
    (s.arb = .locked → s.pc = .addr pc0 ∧ pc0 < s.progMem ∧ s.mem.read pc0 = 0x00) ∧
    (s.arb = .racy → ∃ f, s.fetching = some f ∧ f.pc0 = pc0 ∧ f.bytes.head? = some 0x00) := by
  obtain ⟨harb, hpc, rest, hstream⟩ | ⟨harb, f, rest, hf, hpc0, hbytes⟩ := h
  · refine ⟨fun _ => ?_, fun hracy => Arb.noConfusion (harb.symm.trans hracy)⟩
    by_cases hlt : pc0 < s.progMem
    · rw [s.stream_of_lt hlt] at hstream
      injection hstream with hbyte _
      exact ⟨hpc, hlt, hbyte⟩
    · rw [s.stream_of_ge (Nat.le_of_not_lt hlt)] at hstream
      cases hstream
  · exact ⟨fun hlocked => Arb.noConfusion (harb.symm.trans hlocked), fun _ => ⟨f, hf, hpc0, by rw [hbytes]; rfl⟩⟩

/-- Settles O59: the halting step is an EXIT, and the invariant ties Faulted to a recorded fault. -/
theorem runEndsByExitOrFault : Obligations.RunEndsByExitOrFault := by
  intro s t h hstep
  have ht := stepKeepsInvariant s t h hstep
  refine ⟨fun hend => ?_, fun hend => ?_, fun hmode => ?_, fun hmode => ?_⟩
  · obtain ⟨hrun, hhalted⟩ := State.runEnd_eq_normal.1 hend
    have hs : s.mode ≠ .halted := fun hs => by rw [hs] at hrun; cases hrun
    obtain ⟨hmode, pc0, hexit, heq⟩ := halting_step h hstep hs hhalted
    exact ⟨hmode, ht.fault_none (by simp [hhalted]), pc0, heq, hexit.exit_byte⟩
  · obtain ⟨hrun, hfaulted⟩ := State.runEnd_eq_fault.1 hend
    have hs : s.mode ≠ .faulted := fun hs => by rw [hs] at hrun; cases hrun
    exact ⟨h.fault_none hs, ht.faultedIff.1 hfaulted⟩
  · have hrun := Mode.inRun_eq_true.2 hmode
    exact ⟨State.runEnd_eq_normal.trans (and_iff_right hrun), State.runEnd_eq_fault.trans (and_iff_right hrun)⟩
  · exact State.runEnd_eq_none.2 (.inl (Mode.inRun_eq_false.2 hmode))

/-! ### A run's states form one chain, so that its end is unique -/

/-- A run that goes on from `s` does so by the step from `s`. -/
theorem InRun.head {s u : State} (h : InRun s u) :
    u = s ∨ ∃ t, Machine.step s = .next t ∧ t.mode.inRun = true ∧ InRun t u := by
  induction h with
  | start => exact .inl rfl
  | step v w _ hstep hw ih =>
    obtain rfl | ⟨t, hs, ht, hv⟩ := ih
    · exact .inr ⟨w, hstep, hw, .start⟩
    · exact .inr ⟨t, hs, ht, .step v w hv hstep hw⟩

/-- Of two states of a run one comes first. -/
theorem InRun.linear {start s s' : State} (h : InRun start s) (h' : InRun start s') : InRun s s' ∨ InRun s' s := by
  induction h' with
  | start => exact .inr h
  | step u v _ hstep hv ih =>
    obtain hsu | hus := ih
    · exact .inl (.step u v hsu hstep hv)
    · obtain rfl | ⟨v', hstep', -, hs⟩ := hus.head
      · exact .inl (.step _ v .start hstep hv)
      · cases hstep.symm.trans hstep'
        exact .inr hs

/-- The invariant holds all along a run. -/
theorem InRun.inv {start s : State} (h : InRun start s) (h0 : start.Inv) : s.Inv := by
  induction h with
  | start => exact h0
  | step u v _ hstep _ ih => exact stepKeepsInvariant u v ih hstep

/-- The step from `s` to `t` leaves the run. -/
def LeavesRun (s t : State) : Prop := Machine.step s = .next t ∧ t.mode.inRun = false

theorem InRun.eq_of_leavesRun {s s' t : State} (h : InRun s s') (hs : LeavesRun s t) : s' = s := by
  obtain hsame | ⟨u, hstep, hu, -⟩ := h.head
  · exact hsame
  · obtain ⟨hstep', hout⟩ := hs
    cases hstep.symm.trans hstep'
    cases hu.symm.trans hout

/-- A run is left at one state, by one step. -/
theorem LeavesRun.unique {start s s' t t' : State} (h : InRun start s) (hs : LeavesRun s t) (h' : InRun start s')
    (hs' : LeavesRun s' t') : s = s' ∧ t = t' := by
  have hsame : s = s' := by
    obtain hss' | hs's := h.linear h'
    · exact (hss'.eq_of_leavesRun hs).symm
    · exact hs's.eq_of_leavesRun hs'
  subst hsame
  obtain ⟨hstep, -⟩ := hs
  obtain ⟨hstep', -⟩ := hs'
  cases hstep.symm.trans hstep'
  exact ⟨rfl, rfl⟩

theorem RunGoesOn.not_leavesRun {start s t : State} (h : RunGoesOn start) (hs : InRun start s) : ¬LeavesRun s t := by
  rintro ⟨hstep, hout⟩
  obtain ⟨u, hstep', hin⟩ := h s hs
  cases hstep.symm.trans hstep'
  cases hin.symm.trans hout

/-- A run that ends is left by the step that ends it. -/
theorem RunEndsIn.leavesRun {start final : State} {e : RunEnd} (h : RunEndsIn start e final) :
    ∃ s, InRun start s ∧ LeavesRun s final ∧ s.runEnd final = some e := by
  obtain ⟨s, hs, hstep, hend⟩ := h
  have hout : final.mode.inRun = false := by
    cases e with
    | normal => rw [(State.runEnd_eq_normal.1 hend).2]; rfl
    | fault => rw [(State.runEnd_eq_fault.1 hend).2]; rfl
  exact ⟨s, hs, ⟨hstep, hout⟩, hend⟩

/-- A run that a reset cuts off is left by that reset. -/
theorem RunIsCutOff.leavesRun {start : State} (h : RunIsCutOff start) :
    ∃ s t, InRun start s ∧ LeavesRun s t ∧ t.mode = .unstarted := by
  obtain ⟨s, later, hs, hsched⟩ := h
  exact ⟨s, _, hs, ⟨step_of_input hsched, rfl⟩, rfl⟩

/-- A run that is left ends normally, in a fault, or by a reset. -/
theorem LeavesRun.cases {start s t : State} (h0 : start.mode.inRun = true) (hs : InRun start s) (h : LeavesRun s t) :
    RunEndsIn start .normal t ∨ RunEndsIn start .fault t ∨ RunIsCutOff start := by
  obtain ⟨hstep, hout⟩ := h
  have hin := hs.mode h0
  obtain hm | hm | hm := Mode.inRun_eq_false.1 hout
  · obtain ⟨⟨later, hsched⟩, -⟩ | hkept | hm' | ⟨-, hm' | hm' | hm'⟩ | ⟨-, -, hm'⟩ | ⟨-, hm'⟩ := step_mode hstep
    · exact .inr (.inr ⟨s, later, hs, hsched⟩)
    · rw [← hkept, hout] at hin; cases hin
    all_goals cases hm.symm.trans hm'
  · exact .inl ⟨s, hs, hstep, State.runEnd_eq_normal.2 ⟨hin, hm⟩⟩
  · exact .inr (.inl ⟨s, hs, hstep, State.runEnd_eq_fault.2 ⟨hin, hm⟩⟩)

/-- Settles O60: a run that is never left goes on for ever; one that is left is left once, and the mode it is left for
says how. -/
theorem runEndsInExactlyOneWay : Obligations.RunEndsInExactlyOneWay := by
  intro start hinv h0
  refine ⟨?_, fun e e' t t' h h' => ?_, fun e t h => ⟨fun hon => ?_, fun hcut => ?_⟩, fun hcut hon => ?_⟩
  · by_cases hleft : ∃ s t, InRun start s ∧ LeavesRun s t
    · obtain ⟨s, t, hs, hleaves⟩ := hleft
      obtain hnormal | hfault | hcut := hleaves.cases h0 hs
      · exact .inl ⟨t, hnormal⟩
      · exact .inr (.inl ⟨t, hfault⟩)
      · exact .inr (.inr (.inr hcut))
    · refine .inr (.inr (.inl fun s hs => ?_))
      obtain ⟨t, hstep⟩ := stepAlwaysAnswers s (hs.inv hinv)
      exact ⟨t, hstep, Bool.not_eq_false _ |>.mp fun hout => hleft ⟨s, t, hs, hstep, hout⟩⟩
  · obtain ⟨s, hs, hleaves, hend⟩ := h.leavesRun
    obtain ⟨s', hs', hleaves', hend'⟩ := h'.leavesRun
    obtain ⟨rfl, rfl⟩ := hleaves.unique hs hs' hleaves'
    cases hend.symm.trans hend'
    exact ⟨rfl, rfl⟩
  · obtain ⟨s, hs, hleaves, -⟩ := h.leavesRun
    exact hon.not_leavesRun hs hleaves
  · obtain ⟨s, hs, hleaves, hend⟩ := h.leavesRun
    obtain ⟨s', t', hs', hleaves', hm⟩ := hcut.leavesRun
    obtain ⟨-, rfl⟩ := hleaves.unique hs hs' hleaves'
    rw [State.runEnd_eq_none.2 (.inr (by simp [hm]))] at hend
    cases hend
  · obtain ⟨s, t, hs, hleaves, -⟩ := hcut.leavesRun
    exact hon.not_leavesRun hs hleaves

end Sys2Proof.Machine
end
